-- ==== Sys2Proof/Word.lean ====
section
/-! DEFINITION. The words of the block: everything it holds or carries is an unsigned integer or a
single bit (spec/00_scope.md R11, spec/43_context_commands.md R117). -/

namespace Sys2Proof

/-- A 32-bit word: a count (spec/10_state.md R12), the context register (R21), the immediate of a command
(spec/30_encoding.md R45) and the data of a response (R51). -/
abbrev Word := BitVec 32

/-- A 64-bit command word `cmd[63:0]` (spec/30_encoding.md R44, R45). -/
abbrev CmdWord := BitVec 64

/-- The 8-bit identifier field of a command word, `cmd[55:48]`: a channel id or a flag id
(spec/30_encoding.md R45, spec/20_memory.md R31). -/
abbrev IdField := BitVec 8

end Sys2Proof
end

