-- ==== Sys2Proof/Config.lean ====
section
/-! DEFINITION. The parameters of the block, each at the value this hardware takes
(spec/00_scope.md R9). The block leaves no result open, so there is no free value. -/

namespace Sys2Proof

/-- `N_CH`, the number of channels: 20 (spec/00_scope.md R9). UNVERIFIED, log 5: 20 is the value the spec gives this
hardware, by its own choice. -/
abbrev Config.nCh : Nat := 20

/-- `N_FLAG`, the number of coarse flags: 2 (spec/00_scope.md R9). -/
abbrev Config.nFlag : Nat := 2

/-- `DIV40`, the TICK steps per 40 ms flag: 4 (spec/00_scope.md R9). -/
abbrev Config.div40 : Nat := 4

/-- `DIV500`, the TICK steps per half-second flag: 50 (spec/00_scope.md R9). -/
abbrev Config.div500 : Nat := 50

/-- `N_MODE`, the number of legal values of `CTX.MODE`: 6 (spec/00_scope.md R9). -/
abbrev Config.nMode : Nat := 6

end Sys2Proof
end

