-- ==== Sys2Proof/Syntax.lean ====
section
/-! DEFINITION. What crosses the block's ports, as data: the ten instructions of the opcode table, the
events of the input ports, the responses of the output port (spec/30_encoding.md sections 1 to 7). -/

namespace Sys2Proof

/-- The instructions, one constructor per row of spec/opcode_table.json (spec/30_encoding.md R48, R54).
A channel or flag operand is the 8-bit field as it stands, so an id that names nothing can be written too. -/
inductive Instr where
  /-- `NOP` (R84). -/
  | nop
  /-- `ARM ch, v` (R76). -/
  | arm (ch : IdField) (v : Word)
  /-- `RDCNT ch` (R79). -/
  | rdcnt (ch : IdField)
  /-- `RDTRIG ch` (R80). -/
  | rdtrig (ch : IdField)
  /-- `TAKE ch` (R81). -/
  | take (ch : IdField)
  /-- `RDFLAG f` (R82). -/
  | rdflag (f : IdField)
  /-- `TAKEF f` (R83). -/
  | takef (f : IdField)
  /-- `SETCTX v` (R85). -/
  | setctx (v : Word)
  /-- `RDCTX` (R86). -/
  | rdctx
  /-- `TICK`, the one instruction that is not a command word (R54, R59). -/
  | tick
  deriving DecidableEq, Repr

/-- The five formats of a command word (spec/30_encoding.md R46). -/
inductive Format where
  | z | c | ci | f | i
  deriving DecidableEq, Repr

/-- The nine legal opcodes, by name (spec/30_encoding.md R48). -/
inductive Opcode where
  | nop | arm | rdcnt | rdtrig | take | rdflag | takef | setctx | rdctx
  deriving DecidableEq, Repr

/-- The status of a response (spec/30_encoding.md R52). -/
inductive Status where
  /-- The command was performed. -/
  | ok
  /-- The opcode is reserved. -/
  | badOpcode
  /-- The channel or flag id names nothing. -/
  | badId
  /-- A must-be-zero bit is 1, or the operand of `SETCTX` is no legal context value. -/
  | badOperand
  deriving DecidableEq, Repr

/-- One response: what one command step drives on `rsp_st_o` and `rsp_data_o` (spec/30_encoding.md R51, R55). -/
structure Response where
  st : Status
  data : Word
  deriving DecidableEq, Repr

/-- One step of a trace: a pulse on `tick_i` or a command word on `cmd_i` (spec/00_scope.md R11,
spec/30_encoding.md R44, R55). -/
inductive TraceStep where
  | tick
  | command (w : CmdWord)
  deriving DecidableEq, Repr

/-- One event on the input ports: the reset event of `rst_i` (spec/70_reset_and_hazards.md R102), or a step of
a trace (spec/30_encoding.md R55). -/
inductive Event where
  | reset
  | step (x : TraceStep)
  deriving DecidableEq, Repr

/-- The operating modes `CTX.MODE` may name (spec/10_state.md R22). -/
inductive Mode where
  | foreground | receiving | confirmingSignal | transmitting | monitoring | powerSaving
  deriving DecidableEq, Repr

end Sys2Proof
end

