-- ==== Sys2Proof/Machine/Operands.lean ====
section
/-! DEFINITION. The operand forms: an id that selects a channel or a flag, a context value and its
fields, a single bit read as a word (spec/20_memory.md R31, R32, spec/10_state.md R21, R22,
spec/43_context_commands.md R116). None of these needs the state. -/

namespace Sys2Proof.Machine

/-- A channel that exists: an index below `N_CH` (spec/10_state.md R15). -/
abbrev Channel := Fin Config.nCh

/-- A coarse flag that exists: 0 is `F40`, 1 is `F500` (spec/10_state.md R19). -/
abbrev Flag := Fin Config.nFlag

/-- The channel an id field names, directly and zero-extended; an id of `N_CH` or more names nothing and is not
folded onto another (spec/20_memory.md R32, spec/43_context_commands.md R116). -/
def channel? (id : IdField) : Option Channel :=
  if h : id.toNat < Config.nCh then some ⟨id.toNat, h⟩ else none

/-- The coarse flag an id field names; an id of 2 or more names nothing (spec/20_memory.md R32). -/
def flag? (id : IdField) : Option Flag :=
  if h : id.toNat < Config.nFlag then some ⟨id.toNat, h⟩ else none

/-- A single bit as the 32-bit data of a response, `zext_32` (spec/00_scope.md R11, spec/30_encoding.md R51). -/
def zextBit (b : Bool) : Word := if b then 1 else 0

/-- The number of a mode in `CTX.MODE` (spec/10_state.md R22). -/
def modeCode : Mode → BitVec 3
  | .foreground => 0
  | .receiving => 1
  | .confirmingSignal => 2
  | .transmitting => 3
  | .monitoring => 4
  | .powerSaving => 5

/-- `CTX.MODE`, bits 2:0 (spec/10_state.md R21). -/
def ctxMode (ctx : Word) : BitVec 3 := ctx.extractLsb' 0 3

/-- `CTX.DW_EN`, bit 4: the dual-watch feature is enabled (spec/10_state.md R21). -/
def ctxDwEn (ctx : Word) : Bool := ctx.getLsbD 4

/-- `CTX.NOAA_EN`, bit 5: the NOAA-alternation feature is enabled (spec/10_state.md R21). -/
def ctxNoaaEn (ctx : Word) : Bool := ctx.getLsbD 5

/-- `CTX.SCAN_ACT`, bit 6: a scan is active (spec/10_state.md R21). -/
def ctxScanAct (ctx : Word) : Bool := ctx.getLsbD 6

/-- `CTX.TSCAN_ACT`, bit 7: a tone-scan is active (spec/10_state.md R21). -/
def ctxTscanAct (ctx : Word) : Bool := ctx.getLsbD 7

/-- `legal_ctx(v)`: bits 31:8 and bit 3 are zero and the mode is at most 5 (spec/30_encoding.md R58,
spec/43_context_commands.md R85). -/
def legalCtx (v : Word) : Bool :=
  v.extractLsb' 8 24 == 0 && !v.getLsbD 3 && decide ((v.extractLsb' 0 3).toNat < Config.nMode)

end Sys2Proof.Machine
end

