-- ==== Sys2Proof/Machine/Flags.lean ====
section
/-! DEFINITION. What a TICK step computes for one channel, one divider and one flag: the gates, the
decrement, the trigger, the modulo counters (spec/40_tick.md R60 to R69). -/

namespace Sys2Proof.Machine

/-- The mode is none of Receiving, Transmitting, Monitoring (spec/40_tick.md R61, R62). -/
def modeLetsAlternate (ctx : Word) : Bool :=
  ctxMode ctx != modeCode .receiving && ctxMode ctx != modeCode .transmitting &&
    ctxMode ctx != modeCode .monitoring

/-- The mode is neither Monitoring nor Transmitting (spec/40_tick.md R63). -/
def modeLetsScan (ctx : Word) : Bool :=
  ctxMode ctx != modeCode .monitoring && ctxMode ctx != modeCode .transmitting

/-- `gate(i)`: whether a TICK step visits channel `i` under the context value `ctx` (spec/40_tick.md R60 to R64).
On the modes 6 and 7, which `CTX` never holds, it is the same formula (log 9). -/
def gate (i : Channel) (ctx : Word) : Bool :=
  match i.val with
  | 1 => ctxDwEn ctx && modeLetsAlternate ctx
  | 2 => (ctxScanAct ctx || ctxTscanAct ctx) && modeLetsScan ctx
  | 10 => ctxNoaaEn ctx && modeLetsAlternate ctx
  | _ => true

/-- A channel is decremented by a TICK step: its gate is true and its count is not zero (spec/40_tick.md R59, R65). -/
def counts (gated : Bool) (v : Word) : Bool := gated && v != 0

/-- The count after a TICK step (spec/40_tick.md R65). -/
def tickCount (gated : Bool) (v : Word) : Word := if counts gated v then v - 1 else v

/-- The trigger after a TICK step: set when the step brings the count to zero, else as it was (spec/40_tick.md R66). -/
def tickTrig (gated : Bool) (v : Word) (t : Bool) : Bool := if counts gated v && v - 1 == 0 then true else t

/-- `DIV4` after a TICK step (spec/40_tick.md R67). -/
def nextDiv4 (d : BitVec 2) : BitVec 2 := BitVec.ofNat 2 ((d.toNat + 1) % Config.div40)

/-- `DIV50` after a TICK step (spec/40_tick.md R68); the sum is exact, so 50 to 63, which never occur, are reduced
modulo 50 too (log 10). -/
def nextDiv50 (d : BitVec 6) : BitVec 6 := BitVec.ofNat 6 ((d.toNat + 1) % Config.div500)

/-- `FLAG[0]` after a TICK step: set when the step brings `DIV4` to zero, else as it was (spec/40_tick.md R67). -/
def tickF40 (d : BitVec 2) (f : Bool) : Bool := if nextDiv4 d == 0 then true else f

/-- `FLAG[1]` after a TICK step: set when the step brings `DIV50` to zero, else as it was (spec/40_tick.md R68). -/
def tickF500 (d : BitVec 6) (f : Bool) : Bool := if nextDiv50 d == 0 then true else f

end Sys2Proof.Machine
end

