-- ==== Sys2Proof/WellFormed.lean ====
section
/-! DEFINITION. Which instructions are legal: the instructions with legal operands, for which the
encoding has exactly one word (spec/30_encoding.md R58). -/

namespace Sys2Proof

/-- The operands are in range: a channel id below `N_CH`, a flag id below 2, a legal context value; the other
operands are free (spec/30_encoding.md R46, R47, R58). -/
def Instr.wf : Instr → Bool
  | .nop => true
  | .arm ch _ => (Machine.channel? ch).isSome
  | .rdcnt ch => (Machine.channel? ch).isSome
  | .rdtrig ch => (Machine.channel? ch).isSome
  | .take ch => (Machine.channel? ch).isSome
  | .rdflag f => (Machine.flag? f).isSome
  | .takef f => (Machine.flag? f).isSome
  | .setctx v => Machine.legalCtx v
  | .rdctx => true
  | .tick => true

end Sys2Proof
end

