-- ==== Sys2Proof/Decode.lean ====
section
/-! DEFINITION. The total decoder of the command port and the tick port, the encoder, the port codes of
a response, and the host's entry `decodeTableWord` (spec/30_encoding.md sections 2 to 9). -/

namespace Sys2Proof

/-- What the decoder makes of one trace step (spec/30_encoding.md R58). -/
inductive Decoded where
  /-- A legal instruction with legal operands. -/
  | instr (i : Instr)
  /-- A rejected word, with the status reported. -/
  | rejected (st : Status)
  deriving DecidableEq, Repr

/-! ### Fields, opcodes, formats (R45, R46, R48, R50) -/

/-- `op = cmd[63:56]` (R45). -/
def opField (w : CmdWord) : BitVec 8 := w.extractLsb' 56 8

/-- `id = cmd[55:48]` (R45). -/
def idField (w : CmdWord) : IdField := w.extractLsb' 48 8

/-- `imm = cmd[31:0]` (R45). -/
def immField (w : CmdWord) : Word := w.extractLsb' 0 32

/-- The opcode an `op` field names; 0x09 to 0xFF are reserved (R48, R49). -/
def opcode? (op : BitVec 8) : Option Opcode :=
  match op.toNat with
  | 0x00 => some .nop
  | 0x01 => some .arm
  | 0x02 => some .rdcnt
  | 0x03 => some .rdtrig
  | 0x04 => some .take
  | 0x05 => some .rdflag
  | 0x06 => some .takef
  | 0x07 => some .setctx
  | 0x08 => some .rdctx
  | _ => none

/-- The `op` byte of an opcode (R48). -/
def opcodeByte : Opcode → BitVec 8
  | .nop => 0x00
  | .arm => 0x01
  | .rdcnt => 0x02
  | .rdtrig => 0x03
  | .take => 0x04
  | .rdflag => 0x05
  | .takef => 0x06
  | .setctx => 0x07
  | .rdctx => 0x08

/-- The format of an opcode (R48). -/
def formatOf : Opcode → Format
  | .nop | .rdctx => .z
  | .arm => .ci
  | .rdcnt | .rdtrig | .take => .c
  | .rdflag | .takef => .f
  | .setctx => .i

/-- The must-be-zero bits of a format (R50, R58). -/
def mbzMask : Format → CmdWord
  | .z => 0x00FFFFFFFFFFFFFF
  | .c => 0x0000FFFFFFFFFFFF
  | .f => 0x0000FFFFFFFFFFFF
  | .ci => 0x0000FFFF00000000
  | .i => 0x00FFFFFF00000000

/-- The instruction of an opcode with its operands (R46, R47: operands are used as they stand). -/
def instrOf (op : Opcode) (id : IdField) (imm : Word) : Instr :=
  match op with
  | .nop => .nop
  | .arm => .arm id imm
  | .rdcnt => .rdcnt id
  | .rdtrig => .rdtrig id
  | .take => .take id
  | .rdflag => .rdflag id
  | .takef => .takef id
  | .setctx => .setctx imm
  | .rdctx => .rdctx

/-! ### Decoding (R58) -/

/-- The range checks that follow the must-be-zero check: a channel id, a flag id, a context value (R58). -/
def operandFault? (op : Opcode) (id : IdField) (imm : Word) : Option Status :=
  match formatOf op with
  | .c | .ci => if (Machine.channel? id).isSome then none else some .badId
  | .f => if (Machine.flag? id).isSome then none else some .badId
  | .i => if Machine.legalCtx imm then none else some .badOperand
  | .z => none

/-- `decode(cmd[63:0])`: total on the 2^64 words, the checks in the order of R58 (also R90). -/
def decodeCommand (w : CmdWord) : Decoded :=
  match opcode? (opField w) with
  | none => .rejected .badOpcode
  | some op =>
    if w &&& mbzMask (formatOf op) ≠ 0 then .rejected .badOperand
    else
      match operandFault? op (idField w) (immField w) with
      | some st => .rejected st
      | none => .instr (instrOf op (idField w) (immField w))

/-- What one trace step asks for: a pulse on the tick port is `TICK` and cannot be rejected (R54), a command
word is decoded (R58). No command word is a `TICK` (R49). -/
def decode : TraceStep → Decoded
  | .tick => .instr .tick
  | .command w => decodeCommand w

/-! ### Encoding (R46, R56) -/

/-- The command word `{op, id, 0x0000, imm}` (R45, R56). -/
def packWord (op : Opcode) (id : IdField) (imm : Word) : CmdWord :=
  opcodeByte op ++ id ++ (0 : BitVec 16) ++ imm

/-- How an instruction is presented on the ports: its one word, or a pulse for `TICK` (R56). -/
def encode : Instr → TraceStep
  | .nop => .command (packWord .nop 0 0)
  | .arm ch v => .command (packWord .arm ch v)
  | .rdcnt ch => .command (packWord .rdcnt ch 0)
  | .rdtrig ch => .command (packWord .rdtrig ch 0)
  | .take ch => .command (packWord .take ch 0)
  | .rdflag f => .command (packWord .rdflag f 0)
  | .takef f => .command (packWord .takef f 0)
  | .setctx v => .command (packWord .setctx 0 v)
  | .rdctx => .command (packWord .rdctx 0 0)
  | .tick => .tick

/-! ### The response on its ports (R51, R52, R55) -/

/-- The code of a status on `rsp_st_o[1:0]` (R52). -/
def statusCode : Status → BitVec 2
  | .ok => 0
  | .badOpcode => 1
  | .badId => 2
  | .badOperand => 3

/-- A response as the values of `rsp_st_o` and `rsp_data_o` (R55). -/
def responsePorts (r : Response) : BitVec 2 × Word := (statusCode r.st, r.data)

/-! ### The host's entry -/

/-- The trace step that a word of the opcode table stands for: a row of at most 8 bits is the tick port's
pattern `1` (R54); every other word is a command word, the bits above those given being zero. Log 8. -/
def tableStep (nbits w : Nat) : TraceStep :=
  if nbits ≤ 8 ∧ w = 1 then .tick else .command (BitVec.ofNat 64 w)

/-- The instruction the decoder reads from an instruction whose bits are `w`, numbered as
spec/opcode_table.json numbers them; none where it rejects the word. -/
def decodeTableWord (nbits w : Nat) : Option Instr :=
  match decode (tableStep nbits w) with
  | .instr i => some i
  | .rejected _ => none

end Sys2Proof
end

