-- ==== Sys2Proof/Machine/State.lean ====
section
/-! DEFINITION. The state of the block, the reasons a step could stop, and the state after reset
(spec/10_state.md R12 to R30, spec/70_reset_and_hazards.md R102). -/

namespace Sys2Proof.Machine

/-- The state of the block, in its own names, and the two fields by which the model holds its ports.
State is plain data. -/
structure State where
  /-- `COUNT[0 .. 19]` (spec/10_state.md R12): 0 is idle, `v` > 0 is running with `v` enabled TICK steps to go. -/
  count : Vector Word Config.nCh
  /-- `TRIG[0 .. 19]`, one bit per count (spec/10_state.md R14). -/
  trig : Vector Bool Config.nCh
  /-- `FLAG[0]` = `F40` and `FLAG[1]` = `F500` (spec/10_state.md R19). -/
  flag : Vector Bool Config.nFlag
  /-- `DIV4`, the phase of the 40 ms flag, 0 to 3 (spec/10_state.md R20). -/
  div4 : BitVec 2
  /-- `DIV50`, the phase of the half-second flag, 0 to 49 (spec/10_state.md R20). -/
  div50 : BitVec 6
  /-- `CTX`, the context register (spec/10_state.md R21). -/
  ctx : Word
  /-- The model's own: the events still to arrive on the input ports, the next one first
  (spec/30_encoding.md R55; log 1). It may be any list, so every interleaving of pulses, commands and resets is some state. -/
  inputs : List Event
  /-- The model's own: the responses driven so far on the output port, the oldest first
  (spec/30_encoding.md R51, R53, R55; log 3). No step reads it. -/
  responses : List Response
  deriving DecidableEq, Repr

/-- The faults of the block: none. "This component cannot fail; it is pure bookkeeping" (spec/00_scope.md R7);
it raises no exception and takes no trap (spec/60_exceptions.md R87). Nothing raises one, so nothing here is
unsafe (log 13). -/
inductive Fault where
  deriving DecidableEq, Repr

/-- The refusals of the model. -/
inductive Refusal where
  /-- An instruction whose meaning is not written yet, by its mnemonic. Raised only by an arm of exec that is
  still rejected by name; there is none, so no step answers it. Safe: it stops where the hardware goes on. -/
  | notModelled (mnemonic : String)
  deriving DecidableEq, Repr

/-- What a step or a meaning answers. -/
abbrev Result := Host.Outcome State Fault Refusal

/-- The state right after reset: every piece of the block's state at the value of the table of
spec/10_state.md R27 (log 4), nothing presented on the input ports and no response given (log 2). -/
def State.reset : State where
  count := Vector.replicate Config.nCh 0
  trig := Vector.replicate Config.nCh false
  flag := Vector.replicate Config.nFlag false
  div4 := 0
  div50 := 0
  ctx := 0
  inputs := []
  responses := []

end Sys2Proof.Machine
end

