-- ==== Sys2Proof/Machine/Ops.lean ====
section
/-! DEFINITION. The named operations over the state: reads and writes of the banks by channel or flag,
and the two ends of a command step, respond and reject (spec/00_scope.md R11). The block takes no exception
and returns from none (spec/60_exceptions.md R87, R94, R95); reject stands in that place. -/

namespace Sys2Proof.Machine

/-- `COUNT[i]` (spec/20_memory.md R35: all 32 bits). -/
def readCount (i : Channel) (s : State) : Word := s.count[i]

/-- `COUNT[i] <- v` (spec/20_memory.md R35). -/
def writeCount (i : Channel) (v : Word) (s : State) : State := { s with count := s.count.set i v }

/-- `TRIG[i]` (spec/20_memory.md R35). -/
def readTrig (i : Channel) (s : State) : Bool := s.trig[i]

/-- `TRIG[i] <- 0` (spec/42_trigger_commands.md R81). -/
def clearTrig (i : Channel) (s : State) : State := { s with trig := s.trig.set i false }

/-- `FLAG[f]` (spec/20_memory.md R35). -/
def readFlag (f : Flag) (s : State) : Bool := s.flag[f]

/-- `FLAG[f] <- 0` (spec/42_trigger_commands.md R83). -/
def clearFlag (f : Flag) (s : State) : State := { s with flag := s.flag.set f false }

/-- `CTX <- v`, one whole write (spec/43_context_commands.md R85). -/
def writeCtx (v : Word) (s : State) : State := { s with ctx := v }

/-- The response goes out after the responses of the earlier commands (spec/30_encoding.md R53). -/
def emit (r : Response) (s : State) : State := { s with responses := s.responses ++ [r] }

/-- `respond(d)`: the command step ends with status OK and data `d` (spec/00_scope.md R11). -/
def respond (d : Word) (s : State) : Result := .next (emit ⟨.ok, d⟩ s)

/-- `reject(st)`: the command step ends with status `st`, data 0 and no state written (spec/00_scope.md R11,
spec/60_exceptions.md R88, R89). -/
def reject (st : Status) (s : State) : Result := .next (emit ⟨st, 0⟩ s)

/-- A command on a channel: `BAD_ID` where the id names none (spec/20_memory.md R32), else its effect there. -/
def onChannel (ch : IdField) (s : State) (effect : Channel → Result) : Result :=
  match channel? ch with
  | none => reject .badId s
  | some i => effect i

/-- A command on a coarse flag: `BAD_ID` where the id names none (spec/20_memory.md R32), else its effect there. -/
def onFlag (f : IdField) (s : State) (effect : Flag → Result) : Result :=
  match flag? f with
  | none => reject .badId s
  | some k => effect k

/-! ### The three parts of a TICK step (spec/40_tick.md R59) -/

/-- Part 1, the countdowns: every count and trigger from their values and `CTX` as the step begins. -/
def tickChannels (s : State) : State :=
  { s with
    count := s.count.mapFinIdx fun i v h => tickCount (gate ⟨i, h⟩ s.ctx) v
    trig := s.trig.mapFinIdx fun i t h => tickTrig (gate ⟨i, h⟩ s.ctx) s.count[i] t }

/-- Part 2, the 40 ms flag. -/
def tickDiv4 (s : State) : State :=
  { s with div4 := nextDiv4 s.div4, flag := s.flag.set 0 (tickF40 s.div4 s.flag[0]) }

/-- Part 3, the half-second flag. -/
def tickDiv50 (s : State) : State :=
  { s with div50 := nextDiv50 s.div50, flag := s.flag.set 1 (tickF500 s.div50 s.flag[1]) }

end Sys2Proof.Machine
end

