-- ==== Sys2Proof/Machine/Context.lean ====
section
/-! DEFINITION. The commands on context, NOP, SETCTX, RDCTX (spec/43_context_commands.md). -/

namespace Sys2Proof.Machine

/-- `NOP`: answers OK and does nothing else (R84). -/
def execNop (s : State) : Result := respond 0 s

/-- `SETCTX v`: writes the whole of `CTX` where `v` is legal, else is rejected and `CTX` stays (R85). -/
def execSetctx (v : Word) (s : State) : Result :=
  if legalCtx v then respond 0 (writeCtx v s) else reject .badOperand s

/-- `RDCTX`: answers `CTX` (R86). -/
def execRdctx (s : State) : Result := respond s.ctx s

end Sys2Proof.Machine
end

