-- ==== Sys2Proof/Machine/Counts.lean ====
section
/-! DEFINITION. The commands on counts, ARM and RDCNT (spec/41_countdown_commands.md). -/

namespace Sys2Proof.Machine

/-- `ARM ch, v`: `COUNT[ch] <- v` for any `v`, 0 (cancel) included; `TRIG[ch]` stays as it is (R76, R77, R78). -/
def execArm (ch : IdField) (v : Word) (s : State) : Result :=
  onChannel ch s fun i => respond 0 (writeCount i v s)

/-- `RDCNT ch`: answers `COUNT[ch]` (R79). -/
def execRdcnt (ch : IdField) (s : State) : Result :=
  onChannel ch s fun i => respond (readCount i s) s

end Sys2Proof.Machine
end

