-- ==== Sys2Proof/Machine/Tick.lean ====
section
/-! DEFINITION. The TICK event (spec/40_tick.md). -/

namespace Sys2Proof.Machine

/-- `TICK`: the countdowns, then the 40 ms flag, then the half-second flag, as one atomic step without a
response; it cannot be rejected (R59, R75). The parts touch disjoint state. -/
def execTick (s : State) : Result := .next (tickDiv50 (tickDiv4 (tickChannels s)))

end Sys2Proof.Machine
end

