-- ==== Sys2Proof/Machine/Triggers.lean ====
section
/-! DEFINITION. The commands on triggers and coarse flags, RDTRIG, TAKE, RDFLAG, TAKEF
(spec/42_trigger_commands.md). -/

namespace Sys2Proof.Machine

/-- `RDTRIG ch`: answers `TRIG[ch]` and leaves it (R80). -/
def execRdtrig (ch : IdField) (s : State) : Result :=
  onChannel ch s fun i => respond (zextBit (readTrig i s)) s

/-- `TAKE ch`: answers `TRIG[ch]` as it was and clears it, in one step (R81). -/
def execTake (ch : IdField) (s : State) : Result :=
  onChannel ch s fun i => respond (zextBit (readTrig i s)) (clearTrig i s)

/-- `RDFLAG f`: answers `FLAG[f]` and leaves it (R82). -/
def execRdflag (f : IdField) (s : State) : Result :=
  onFlag f s fun k => respond (zextBit (readFlag k s)) s

/-- `TAKEF f`: answers `FLAG[f]` as it was and clears it, in one step; the dividers are untouched (R83). -/
def execTakef (f : IdField) (s : State) : Result :=
  onFlag f s fun k => respond (zextBit (readFlag k s)) (clearFlag k s)

end Sys2Proof.Machine
end

