-- ==== Sys2Proof/Machine/Dispatch.lean ====
section
/-! DEFINITION. The meaning of every instruction, one arm per constructor. -/

namespace Sys2Proof.Machine

def exec (i : Instr) (s : State) : Host.Outcome State Fault Refusal :=
  match i with
  | .nop => Sys2Proof.Machine.execNop s
  | .arm ch v => Sys2Proof.Machine.execArm ch v s
  | .rdcnt ch => Sys2Proof.Machine.execRdcnt ch s
  | .rdtrig ch => Sys2Proof.Machine.execRdtrig ch s
  | .take ch => Sys2Proof.Machine.execTake ch s
  | .rdflag f => Sys2Proof.Machine.execRdflag f s
  | .takef f => Sys2Proof.Machine.execTakef f s
  | .setctx v => Sys2Proof.Machine.execSetctx v s
  | .rdctx => Sys2Proof.Machine.execRdctx s
  | .tick => Sys2Proof.Machine.execTick s

end Sys2Proof.Machine
end

