-- ==== Sys2Proof/Machine/Events.lean ====
section
/-! DEFINITION. How one event on the input ports becomes one step of the block: the next event is
taken, decoded and performed (spec/00_scope.md R4 to R7, spec/30_encoding.md R53 to R58,
spec/70_reset_and_hazards.md R102). -/

namespace Sys2Proof.Machine

/-- The reset event: every piece of the block's state takes its reset value, whatever it was
(spec/70_reset_and_hazards.md R102). The events still to come and the responses already given belong to the
outside world and stay (log 7). -/
def resetBlock (s : State) : State := { State.reset with inputs := s.inputs, responses := s.responses }

/-- One step of a trace: a legal instruction is performed, a malformed word is rejected
(spec/30_encoding.md R58, spec/60_exceptions.md R88, R89). -/
def performStep (x : TraceStep) (s : State) : Result :=
  match decode x with
  | .instr i => exec i s
  | .rejected st => reject st s

/-- One event on the input ports (spec/30_encoding.md R55). -/
def performEvent (e : Event) (s : State) : Result :=
  match e with
  | .reset => .next (resetBlock s)
  | .step x => performStep x s

/-- The next event is taken from the ports and performed whole, before the one after it (spec/00_scope.md R6);
while none arrives nothing changes, for only steps change state (spec/60_exceptions.md R101; log 2). -/
def advance (s : State) : Result :=
  match s.inputs with
  | [] => .next s
  | e :: rest => performEvent e { s with inputs := rest }

/-- The trace step `x` arrives before every event already to come. -/
def presentNext (x : TraceStep) (s : State) : State := { s with inputs := .step x :: s.inputs }

end Sys2Proof.Machine
end

