-- ==== Sys2Proof/Machine/Step.lean ====
section
/-! DEFINITION. One step of the machine: one event (spec/00_scope.md R6). -/

namespace Sys2Proof.Machine

/-- One step of the machine. -/
def step (s : State) : Host.Outcome State Fault Refusal := advance s

/-- `s` with the instruction whose bits are `w` (numbered as spec/opcode_table.json numbers them) presented as
the next event, so that the very next step runs it. Log 8. -/
def State.withFetchWord (s : State) (nbits w : Nat) : State := presentNext (tableStep nbits w) s

end Sys2Proof.Machine
end

