-- ==== Sys2Proof/Machine/Assembler.lean ====
section
/-! DEFINITION. The spelling of an instruction in a listing and the pseudo-instructions, which add no
behaviour (spec/30_encoding.md R56, R57, spec/10_state.md R15). Nothing of the machine depends on this file. -/

namespace Sys2Proof.Machine

/-- The mnemonics of the channels in the order of their ids (spec/10_state.md R15). -/
def channelNames : List String :=
  ["BATSAVE", "DUALWATCH", "SCANPAUSE", "TAILELIM", "TONEFND_CT", "TONEFND_DG", "TXTIMEOUT", "TXTAIL",
   "VOXPAUSE", "VOXSTOP", "NOAA", "VOICEQ", "FMSCAN", "KEYRPT", "GEN14", "GEN15", "GEN16", "GEN17", "GEN18", "GEN19"]

/-- The names of the coarse flags in the order of their ids (spec/10_state.md R19). -/
def flagNames : List String := ["F40", "F500"]

/-- An identifier in a listing: its mnemonic, or its number where it names nothing (R56; log 15). -/
def spellId (names : List String) (id : IdField) : String := names.getD id.toNat (toString id.toNat)

/-- An instruction as R56 spells it: the mnemonic in capitals, operands separated by commas. -/
def spell : Instr → String
  | .nop => "NOP"
  | .arm ch v => "ARM " ++ spellId channelNames ch ++ ", " ++ toString v.toNat
  | .rdcnt ch => "RDCNT " ++ spellId channelNames ch
  | .rdtrig ch => "RDTRIG " ++ spellId channelNames ch
  | .take ch => "TAKE " ++ spellId channelNames ch
  | .rdflag f => "RDFLAG " ++ spellId flagNames f
  | .takef f => "TAKEF " ++ spellId flagNames f
  | .setctx v => "SETCTX " ++ toString v.toNat
  | .rdctx => "RDCTX"
  | .tick => "TICK"

/-- `CANCEL ch` is `ARM ch, 0` (R57). -/
def cancel (ch : IdField) : Instr := .arm ch 0

/-- `CLRTRIG ch` is `TAKE ch`, the response discarded by the host (R57). -/
def clrtrig (ch : IdField) : Instr := .take ch

/-- `CLRFLAG f` is `TAKEF f`, the response discarded by the host (R57). -/
def clrflag (f : IdField) : Instr := .takef f

/-- The context value of given fields, `m | a<<4 | b<<5 | c<<6 | d<<7` (R57). -/
def ctxValue (m : Mode) (dwEn noaaEn scanAct tscanAct : Bool) : Word :=
  (modeCode m).setWidth 32 ||| zextBit dwEn <<< 4 ||| zextBit noaaEn <<< 5 ||| zextBit scanAct <<< 6 |||
    zextBit tscanAct <<< 7

/-- `SETCTX MODE=m, DW_EN=a, NOAA_EN=b, SCAN_ACT=c, TSCAN_ACT=d` (R57). -/
def setctxFields (m : Mode) (dwEn noaaEn scanAct tscanAct : Bool) : Instr :=
  .setctx (ctxValue m dwEn noaaEn scanAct tscanAct)

/-- The second command of `SETMODE m`, which the host issues with `data` the response of the `RDCTX` that is the
first: `SETCTX ((data & 0xFFFFFFF8) | m)` (R57). -/
def setmodeSecond (m : Mode) (data : Word) : Instr :=
  .setctx (data &&& 0xFFFFFFF8 ||| (modeCode m).setWidth 32)

end Sys2Proof.Machine
end

