-- ==== Sys2Proof/Safety.lean ====
section
/-! DEFINITION. The terms claims are written in: the invariant of the reachable states, runs, the counts of
steps along a run, and the one fairness assumption (spec/10_state.md R30, spec/00_scope.md R7, R11,
spec/70_reset_and_hazards.md R114). -/

namespace Sys2Proof.Machine

/-- The invariant of spec/10_state.md R30, less what the types of the fields already say: the context value is
legal (bits 31:8 and bit 3 zero, mode at most 5) and `DIV50` is at most 49. -/
abbrev State.Inv (s : State) : Prop := legalCtx s.ctx = true ∧ s.div50.toNat ≤ 49

/-- Two states have the same block state, bit for bit: all but the events to come and the responses given
(spec/10_state.md R12 to R21). -/
abbrev SameBlock (s t : State) : Prop :=
  t.count = s.count ∧ t.trig = s.trig ∧ t.flag = s.flag ∧ t.div4 = s.div4 ∧ t.div50 = s.div50 ∧ t.ctx = s.ctx

/-- `n` steps from `s` end in `t`, with no fault and no refusal on the way. -/
abbrev RunsTo (n : Nat) (s t : State) : Prop := core.run n s = .next t

/-- The next event to arrive is a TICK pulse. -/
def nextIsTick (s : State) : Bool := s.inputs.head? == some (.step .tick)

/-- The next step is an enabled TICK step for channel `i` (spec/00_scope.md R11). -/
def nextIsEnabledTick (i : Channel) (s : State) : Bool := nextIsTick s && gate i s.ctx

/-- The next step sets the trigger of channel `i`: an enabled TICK step that brings its count from 1 to 0, the
setting act of spec/40_tick.md R66 (R72 calls it firing). -/
def setsTrigger (i : Channel) (s : State) : Bool := nextIsEnabledTick i s && s.count[i] == 1

/-- How many of the first `n` steps from `s` are taken from a state with the property `p`. -/
def stepsFrom (p : State → Bool) : Nat → State → Nat
  | 0, _ => 0
  | n + 1, s =>
    (if p s then 1 else 0) +
      match step s with
      | .next t => stepsFrom p n t
      | .fault _ => 0
      | .refused _ => 0

/-- The TICK steps among the first `n` steps from `s`. -/
abbrev ticks (n : Nat) (s : State) : Nat := stepsFrom nextIsTick n s

/-- The enabled TICK steps for channel `i` among the first `n` steps from `s` (spec/00_scope.md R11). -/
abbrev enabledTicks (i : Channel) (n : Nat) (s : State) : Nat := stepsFrom (nextIsEnabledTick i) n s

/-- The event is an `ARM` of channel `i`, with any value (spec/41_countdown_commands.md R76). -/
def armsChannel (i : Channel) (e : Event) : Bool :=
  match e with
  | .reset => false
  | .step x =>
    match decode x with
    | .instr (.arm ch _) => channel? ch == some i
    | _ => false

/-- The event is an `ARM` of channel `i` with a positive value: a rearm (spec/40_tick.md R72). -/
def rearmsChannel (i : Channel) (e : Event) : Bool :=
  match e with
  | .reset => false
  | .step x =>
    match decode x with
    | .instr (.arm ch v) => channel? ch == some i && v != 0
    | _ => false

/-- The event is a `TAKE` of channel `i` (spec/42_trigger_commands.md R81). -/
def takesTrigger (i : Channel) (e : Event) : Bool :=
  match e with
  | .reset => false
  | .step x =>
    match decode x with
    | .instr (.take ch) => channel? ch == some i
    | _ => false

/-- The event is a `TAKEF` of flag `f` (spec/42_trigger_commands.md R83). -/
def takesFlag (f : Flag) (e : Event) : Bool :=
  match e with
  | .reset => false
  | .step x =>
    match decode x with
    | .instr (.takef k) => flag? k == some f
    | _ => false

/-- The event is a command word, legal or not: the events that are answered (spec/30_encoding.md R51). -/
def isCommand : Event → Bool
  | .step (.command _) => true
  | .step .tick => false
  | .reset => false

/-- The state `s` with the first `n` events of an endless sequence still to come. -/
def State.awaiting (s : State) (events : Nat → Event) (n : Nat) : State :=
  { s with inputs := (List.range n).map events }

/-- Weak fairness of the TICK agent: infinitely many TICK steps in an endless sequence of events
(spec/70_reset_and_hazards.md R114). A premise a liveness claim may use; the machine does not rest on it. -/
def WeaklyFair (events : Nat → Event) : Prop := ∀ n, ∃ m, n ≤ m ∧ events m = .step .tick

end Sys2Proof.Machine
end

