-- ==== Sys2Proof/Certificates/Slice0/Obligations.lean ====
section
/-! DEFINITION. The statements about the model, each from a rule of the spec it names. `Claims` holds the
abbreviations they are written in: the fields of a command word by their bit positions (spec/30_encoding.md
R45), and the two forms a command's answer takes (spec/00_scope.md R11). -/

open Sys2Proof Sys2Proof.Machine

/-- `cmd[63:56]`. -/
abbrev Claims.op (w : CmdWord) : BitVec 8 := w.extractLsb' 56 8

/-- `cmd[55:48]`. -/
abbrev Claims.id (w : CmdWord) : BitVec 8 := w.extractLsb' 48 8

/-- `cmd[31:0]`. -/
abbrev Claims.imm (w : CmdWord) : BitVec 32 := w.extractLsb' 0 32

/-- A must-be-zero bit of the word's format is 1: bits 55:0 (`NOP`, `RDCTX`), 47:0 (formats C and F), 47:32
(`ARM`), 55:32 (`SETCTX`); spec/30_encoding.md R50. -/
abbrev Claims.mbzViolated (w : CmdWord) : Prop :=
  ((Claims.op w = 0 ∨ Claims.op w = 8) ∧ w.extractLsb' 0 56 ≠ 0) ∨
  ((2 ≤ (Claims.op w).toNat ∧ (Claims.op w).toNat ≤ 6) ∧ w.extractLsb' 0 48 ≠ 0) ∨
  (Claims.op w = 1 ∧ w.extractLsb' 32 16 ≠ 0) ∨
  (Claims.op w = 7 ∧ w.extractLsb' 32 24 ≠ 0)

/-- The value breaks the layout of `CTX`: a bit of 31:8 or bit 3 is 1, or the mode is above 5;
spec/43_context_commands.md R85. -/
abbrev Claims.ctxIllegal (v : Word) : Prop :=
  v.extractLsb' 8 24 ≠ 0 ∨ v.getLsbD 3 = true ∨ 5 < (v.extractLsb' 0 3).toNat

/-- The state after a command that is rejected with status `st`: one event taken, one response given, all the
rest as it was. -/
abbrev Claims.rejected (s : State) (rest : List Event) (st : Status) : State :=
  { s with inputs := rest, responses := s.responses ++ [⟨st, 0⟩] }

/-- The state after a command that answers OK with data `d` and writes nothing. -/
abbrev Claims.answered (s : State) (rest : List Event) (d : Word) : State :=
  { s with inputs := rest, responses := s.responses ++ [⟨.ok, d⟩] }

/-- The word arrives next on the command port. -/
abbrev Claims.arrives (s : State) (w : CmdWord) (rest : List Event) : Prop :=
  s.inputs = .step (.command w) :: rest

/-- The id field that names a channel. -/
abbrev Claims.chId (i : Channel) : IdField := BitVec.ofNat 8 i.val

/-- The id field that names a coarse flag. -/
abbrev Claims.flagId (f : Flag) : IdField := BitVec.ofNat 8 f.val

/-- An instruction as the event that presents it. -/
abbrev Claims.ev (i : Instr) : Event := .step (encode i)

/-- A bit as a word: 0 or 1. -/
abbrev Claims.bit (b : Bool) : Word := if b = true then 1 else 0

/-! ### Reset, totality, determinism -/

/-- spec/10_state.md R27, spec/70_reset_and_hazards.md R102: the reset event sets every piece of state to the
value of R27's table, whatever the state before, and `State.reset` has those values. -/
def Obligations.ResetSetsEveryPieceOfState : Prop :=
  (∀ (s : State) (rest : List Event), s.inputs = .reset :: rest →
    ∃ t, step s = .next t ∧ (∀ i : Channel, t.count[i] = 0 ∧ t.trig[i] = false) ∧
      (∀ f : Flag, t.flag[f] = false) ∧ t.div4 = 0 ∧ t.div50 = 0 ∧ t.ctx = 0) ∧
  (∀ i : Channel, State.reset.count[i] = 0 ∧ State.reset.trig[i] = false) ∧
  (∀ f : Flag, State.reset.flag[f] = false) ∧
  State.reset.div4 = 0 ∧ State.reset.div50 = 0 ∧ State.reset.ctx = 0

/-- spec/10_state.md R30 (an inference of the spec): the invariant holds at reset. -/
def Obligations.ResetMeetsInvariant : Prop := State.Inv State.reset

/-- spec/10_state.md R30 (an inference of the spec): every step keeps the invariant, from every state that has
it: the context value stays legal and `DIV50` stays at most 49, whatever event arrives. -/
def Obligations.StepKeepsInvariant : Prop :=
  ∀ s t : State, s.Inv → step s = .next t → t.Inv

/-- spec/60_exceptions.md R87 and spec/00_scope.md R7: no run ever stops, in a fault or a refusal, whatever
events arrive and from whatever state; and the state after a run, with every response in it, is a function of
the block's state at its start and of the events alone: the responses given before do not matter. -/
def Obligations.RunNeverStopsAndIsAFunctionOfStateAndTrace : Prop :=
  ∀ (n : Nat) (s s' : State), SameBlock s s' → s.inputs = s'.inputs →
    ∃ t t' out, RunsTo n s t ∧ RunsTo n s' t' ∧ SameBlock t t' ∧ t.inputs = t'.inputs ∧
      t.responses = s.responses ++ out ∧ t'.responses = s'.responses ++ out

/-- spec/00_scope.md R6, spec/30_encoding.md R53: a step performs the next event, whole, and nothing else. A word
or pulse that decodes to an instruction runs exactly that instruction on the state with the event taken; a
malformed word is rejected; a reset event leaves the events to come and the responses given as they are; with no
event to come nothing changes. The clauses on the inputs and on the empty list are the model's own (logs 1, 2, 3, 7). -/
def Obligations.StepRunsTheDecodedInstruction : Prop :=
  (∀ (s : State) (x : TraceStep) (rest : List Event) (i : Instr), s.inputs = .step x :: rest →
    decode x = .instr i → step s = exec i { s with inputs := rest }) ∧
  (∀ (s : State) (x : TraceStep) (rest : List Event) (st : Status), s.inputs = .step x :: rest →
    decode x = .rejected st → step s = .next (Claims.rejected s rest st)) ∧
  (∀ (s : State) (rest : List Event), s.inputs = .reset :: rest →
    step s = .next { State.reset with inputs := rest, responses := s.responses }) ∧
  (∀ s : State, s.inputs = [] → step s = .next s)

/-! ### Decoding and encoding -/

/-- spec/30_encoding.md section 9: decoding and encoding agree on all instructions and all 2^64 words: what
decodes to an instruction is exactly the encoding of that instruction with legal operands. -/
def Obligations.DecodeIsTheInverseOfEncode : Prop :=
  ∀ (i : Instr) (x : TraceStep), decode x = .instr i ↔ i.wf = true ∧ x = encode i

/-- spec/30_encoding.md R58, spec/60_exceptions.md R90: the outcomes of the decoder in their fixed order, over the
bits of the word; two legal words never decode to one instruction, and every legal command has a word. -/
def Obligations.DecoderOutcomesInFixedOrder : Prop :=
  (∀ w : CmdWord,
    if 8 < (Claims.op w).toNat then decode (.command w) = .rejected .badOpcode
    else if Claims.mbzViolated w then decode (.command w) = .rejected .badOperand
    else if (1 ≤ (Claims.op w).toNat ∧ (Claims.op w).toNat ≤ 4) ∧ 20 ≤ (Claims.id w).toNat then
      decode (.command w) = .rejected .badId
    else if (Claims.op w = 5 ∨ Claims.op w = 6) ∧ 2 ≤ (Claims.id w).toNat then
      decode (.command w) = .rejected .badId
    else if Claims.op w = 7 ∧ Claims.ctxIllegal (Claims.imm w) then decode (.command w) = .rejected .badOperand
    else
      (Claims.op w = 0 → decode (.command w) = .instr .nop) ∧
      (Claims.op w = 1 → decode (.command w) = .instr (.arm (Claims.id w) (Claims.imm w))) ∧
      (Claims.op w = 2 → decode (.command w) = .instr (.rdcnt (Claims.id w))) ∧
      (Claims.op w = 3 → decode (.command w) = .instr (.rdtrig (Claims.id w))) ∧
      (Claims.op w = 4 → decode (.command w) = .instr (.take (Claims.id w))) ∧
      (Claims.op w = 5 → decode (.command w) = .instr (.rdflag (Claims.id w))) ∧
      (Claims.op w = 6 → decode (.command w) = .instr (.takef (Claims.id w))) ∧
      (Claims.op w = 7 → decode (.command w) = .instr (.setctx (Claims.imm w))) ∧
      (Claims.op w = 8 → decode (.command w) = .instr .rdctx)) ∧
  (∀ (w w' : CmdWord) (i : Instr), decode (.command w) = .instr i → decode (.command w') = .instr i → w = w') ∧
  (∀ i : Instr, i.wf = true → i ≠ .tick → ∃ w, decode (.command w) = .instr i)

/-- spec/30_encoding.md sections 2, 3 and 8: the word of each instruction as a number, `op * 2^56 + id * 2^48 + imm`,
with the opcodes of the map. -/
def Obligations.EncodedWordsAsNumbers : Prop :=
  (∀ w, encode .nop = .command w → w.toNat = 0) ∧
  (∀ ch v w, encode (.arm ch v) = .command w → w.toNat = 0x01 * 2 ^ 56 + ch.toNat * 2 ^ 48 + v.toNat) ∧
  (∀ ch w, encode (.rdcnt ch) = .command w → w.toNat = 0x02 * 2 ^ 56 + ch.toNat * 2 ^ 48) ∧
  (∀ ch w, encode (.rdtrig ch) = .command w → w.toNat = 0x03 * 2 ^ 56 + ch.toNat * 2 ^ 48) ∧
  (∀ ch w, encode (.take ch) = .command w → w.toNat = 0x04 * 2 ^ 56 + ch.toNat * 2 ^ 48) ∧
  (∀ f w, encode (.rdflag f) = .command w → w.toNat = 0x05 * 2 ^ 56 + f.toNat * 2 ^ 48) ∧
  (∀ f w, encode (.takef f) = .command w → w.toNat = 0x06 * 2 ^ 56 + f.toNat * 2 ^ 48) ∧
  (∀ v w, encode (.setctx v) = .command w → w.toNat = 0x07 * 2 ^ 56 + v.toNat) ∧
  (∀ w, encode .rdctx = .command w → w.toNat = 0x08 * 2 ^ 56)

/-- spec/95_test_vectors.md sections 2.1 and 2.2: a few words of the listing and what they decode to. -/
def Obligations.ListedWordsDecode : Prop :=
  decode (.command 0x0000000000000000) = .instr .nop ∧
  decode (.command 0x010600000000003C) = .instr (.arm 6 60) ∧
  decode (.command 0x0201000000000000) = .instr (.rdcnt 1) ∧
  decode (.command 0x0406000000000000) = .instr (.take 6) ∧
  decode (.command 0x0601000000000000) = .instr (.takef 1) ∧
  decode (.command 0x07000000000000F5) = .instr (.setctx 0xF5) ∧
  decode (.command 0x0800000000000000) = .instr .rdctx ∧
  decode (.command 0x0900000000000000) = .rejected .badOpcode ∧
  decode (.command 0x01FF000100000005) = .rejected .badOperand ∧
  decode (.command 0x0114000000000005) = .rejected .badId ∧
  decode (.command 0x0700000000000006) = .rejected .badOperand

/-! ### Rejections and responses -/

/-- spec/30_encoding.md R49: a reserved opcode is rejected with BAD_OPCODE, data 0, and writes no state; and no
command word performs a TICK step. -/
def Obligations.ReservedOpcodeIsRejected : Prop :=
  (∀ (s : State) (w : CmdWord) (rest : List Event), Claims.arrives s w rest → 9 ≤ (Claims.op w).toNat →
    step s = .next (Claims.rejected s rest .badOpcode)) ∧
  (∀ w : CmdWord, decode (.command w) ≠ .instr .tick)

/-- spec/30_encoding.md R50: with a legal opcode, a must-be-zero bit that is 1 rejects the command with
BAD_OPERAND, data 0, and no state is written. -/
def Obligations.MustBeZeroBitRejectsCommand : Prop :=
  ∀ (s : State) (w : CmdWord) (rest : List Event), Claims.arrives s w rest → (Claims.op w).toNat ≤ 8 →
    Claims.mbzViolated w → step s = .next (Claims.rejected s rest .badOperand)

/-- spec/20_memory.md section 1, said of the instructions as `exec` performs them. Clauses 1 and 2: an instruction whose
id or fid is out of range, which the decoder never gives, is rejected with BAD_ID and writes no state of the block; that
`exec` has such a check of its own is the model's choice, log 11 (the rejection of the arriving word is stated in
ArmWord, RdcntWord, RdtrigWord, TakeWord, RdflagWord and TakefWord). Clauses 3 and 4: two identifiers in range never
overlap: what is done at one leaves the other. -/
def Obligations.IdOutOfRangeIsRejected : Prop :=
  (∀ (s : State) (ch : IdField) (v : Word) (i : Instr), 20 ≤ ch.toNat →
    i = .arm ch v ∨ i = .rdcnt ch ∨ i = .rdtrig ch ∨ i = .take ch →
    exec i s = .next (Claims.rejected s s.inputs .badId)) ∧
  (∀ (s : State) (f : IdField) (i : Instr), 2 ≤ f.toNat → i = .rdflag f ∨ i = .takef f →
    exec i s = .next (Claims.rejected s s.inputs .badId)) ∧
  (∀ (s t : State) (i j : Channel) (v : Word), i ≠ j →
    exec (.arm (Claims.chId i) v) s = .next t ∨ exec (.take (Claims.chId i)) s = .next t →
    t.count[j] = s.count[j] ∧ t.trig[j] = s.trig[j]) ∧
  (∀ (s t : State) (f k : Flag), f ≠ k → exec (.takef (Claims.flagId f)) s = .next t → t.flag[k] = s.flag[k])

/-- spec/60_exceptions.md R89: a rejected command leaves the block's state as it was, bit for bit; its response is
a non-OK status with data 0, the same from every state; and later steps find the same block. -/
def Obligations.RejectedCommandChangesNothing : Prop :=
  ∀ (w : CmdWord) (st : Status), decode (.command w) = .rejected st → st ≠ .ok ∧
    ∀ (s : State) (rest : List Event), Claims.arrives s w rest →
      ∃ t, step s = .next t ∧ SameBlock s t ∧ t.inputs = rest ∧ t.responses = s.responses ++ [⟨st, 0⟩]

/-- spec/30_encoding.md R51: every command step produces exactly one response; its data is 0 when the status is not
OK, and otherwise what the table says for the command. -/
def Obligations.EveryCommandIsAnsweredOnce : Prop :=
  ∀ (s : State) (w : CmdWord) (rest : List Event), Claims.arrives s w rest →
    ∃ t r, step s = .next t ∧ t.responses = s.responses ++ [r] ∧
      (r.st ≠ .ok → r.data = 0) ∧
      (r.st = .ok →
        (Claims.op w = 0 ∨ Claims.op w = 1 ∨ Claims.op w = 7 → r.data = 0) ∧
        (Claims.op w = 2 → ∃ i : Channel, i.val = (Claims.id w).toNat ∧ r.data = s.count[i]) ∧
        (Claims.op w = 3 ∨ Claims.op w = 4 →
          ∃ i : Channel, i.val = (Claims.id w).toNat ∧ r.data = Claims.bit s.trig[i]) ∧
        (Claims.op w = 5 ∨ Claims.op w = 6 →
          ∃ f : Flag, f.val = (Claims.id w).toNat ∧ r.data = Claims.bit s.flag[f]) ∧
        (Claims.op w = 8 → r.data = s.ctx))

/-- spec/30_encoding.md R53: commands are performed in the order presented, one event a step, and the responses come
back in that order, one per command and none for a TICK: after any run the new responses stand behind the earlier
ones and are as many as the command words among the events taken. -/
def Obligations.ResponsesComeInOrderOnePerCommand : Prop :=
  ∀ (n : Nat) (s t : State), RunsTo n s t →
    t.inputs = s.inputs.drop n ∧
    ∃ out, t.responses = s.responses ++ out ∧ out.length = (s.inputs.take n).countP isCommand

/-- spec/60_exceptions.md R96: one privilege level: whether a command is accepted depends on its word alone, on no
state and so on no mode; every word that decodes is accepted, every other is not. -/
def Obligations.AcceptanceDependsOnTheWordAlone : Prop :=
  ∀ w : CmdWord, ∃ st : Status, (st = .ok ↔ ∃ i, decode (.command w) = .instr i) ∧
    ∀ (s : State) (rest : List Event), Claims.arrives s w rest →
      ∃ t d, step s = .next t ∧ t.responses = s.responses ++ [⟨st, d⟩]

/-! ### The commands, as words on the port -/

/-- spec/43_context_commands.md R84: `NOP`. -/
def Obligations.NopWord : Prop :=
  ∀ (s : State) (w : CmdWord) (rest : List Event), Claims.arrives s w rest → Claims.op w = 0x00 →
    (w.extractLsb' 0 56 ≠ 0 → step s = .next (Claims.rejected s rest .badOperand)) ∧
    (w.extractLsb' 0 56 = 0 → step s = .next (Claims.answered s rest 0))

/-- spec/41_countdown_commands.md R76: `ARM ch, v`. -/
def Obligations.ArmWord : Prop :=
  ∀ (s : State) (w : CmdWord) (rest : List Event), Claims.arrives s w rest → Claims.op w = 0x01 →
    (w.extractLsb' 32 16 ≠ 0 → step s = .next (Claims.rejected s rest .badOperand)) ∧
    (w.extractLsb' 32 16 = 0 → 20 ≤ (Claims.id w).toNat → step s = .next (Claims.rejected s rest .badId)) ∧
    (∀ i : Channel, w.extractLsb' 32 16 = 0 → (Claims.id w).toNat = i.val →
      ∃ counts', (∀ j : Channel, counts'[j] = if j = i then Claims.imm w else s.count[j]) ∧
        step s = .next { Claims.answered s rest 0 with count := counts' })

/-- spec/41_countdown_commands.md R79: `RDCNT ch`. -/
def Obligations.RdcntWord : Prop :=
  ∀ (s : State) (w : CmdWord) (rest : List Event), Claims.arrives s w rest → Claims.op w = 0x02 →
    (w.extractLsb' 0 48 ≠ 0 → step s = .next (Claims.rejected s rest .badOperand)) ∧
    (w.extractLsb' 0 48 = 0 → 20 ≤ (Claims.id w).toNat → step s = .next (Claims.rejected s rest .badId)) ∧
    (∀ i : Channel, w.extractLsb' 0 48 = 0 → (Claims.id w).toNat = i.val →
      step s = .next (Claims.answered s rest s.count[i]))

/-- spec/42_trigger_commands.md R80: `RDTRIG ch`. -/
def Obligations.RdtrigWord : Prop :=
  ∀ (s : State) (w : CmdWord) (rest : List Event), Claims.arrives s w rest → Claims.op w = 0x03 →
    (w.extractLsb' 0 48 ≠ 0 → step s = .next (Claims.rejected s rest .badOperand)) ∧
    (w.extractLsb' 0 48 = 0 → 20 ≤ (Claims.id w).toNat → step s = .next (Claims.rejected s rest .badId)) ∧
    (∀ i : Channel, w.extractLsb' 0 48 = 0 → (Claims.id w).toNat = i.val →
      step s = .next (Claims.answered s rest (Claims.bit s.trig[i])))

/-- spec/42_trigger_commands.md R81: `TAKE ch`. -/
def Obligations.TakeWord : Prop :=
  ∀ (s : State) (w : CmdWord) (rest : List Event), Claims.arrives s w rest → Claims.op w = 0x04 →
    (w.extractLsb' 0 48 ≠ 0 → step s = .next (Claims.rejected s rest .badOperand)) ∧
    (w.extractLsb' 0 48 = 0 → 20 ≤ (Claims.id w).toNat → step s = .next (Claims.rejected s rest .badId)) ∧
    (∀ i : Channel, w.extractLsb' 0 48 = 0 → (Claims.id w).toNat = i.val →
      ∃ trigs, (∀ j : Channel, trigs[j] = if j = i then false else s.trig[j]) ∧
        step s = .next { Claims.answered s rest (Claims.bit s.trig[i]) with trig := trigs })

/-- spec/42_trigger_commands.md R82: `RDFLAG f`. -/
def Obligations.RdflagWord : Prop :=
  ∀ (s : State) (w : CmdWord) (rest : List Event), Claims.arrives s w rest → Claims.op w = 0x05 →
    (w.extractLsb' 0 48 ≠ 0 → step s = .next (Claims.rejected s rest .badOperand)) ∧
    (w.extractLsb' 0 48 = 0 → 2 ≤ (Claims.id w).toNat → step s = .next (Claims.rejected s rest .badId)) ∧
    (∀ f : Flag, w.extractLsb' 0 48 = 0 → (Claims.id w).toNat = f.val →
      step s = .next (Claims.answered s rest (Claims.bit s.flag[f])))

/-- spec/42_trigger_commands.md R83: `TAKEF f`; the divider phases are untouched. -/
def Obligations.TakefWord : Prop :=
  ∀ (s : State) (w : CmdWord) (rest : List Event), Claims.arrives s w rest → Claims.op w = 0x06 →
    (w.extractLsb' 0 48 ≠ 0 → step s = .next (Claims.rejected s rest .badOperand)) ∧
    (w.extractLsb' 0 48 = 0 → 2 ≤ (Claims.id w).toNat → step s = .next (Claims.rejected s rest .badId)) ∧
    (∀ f : Flag, w.extractLsb' 0 48 = 0 → (Claims.id w).toNat = f.val →
      ∃ flags, (∀ k : Flag, flags[k] = if k = f then false else s.flag[k]) ∧
        step s = .next { Claims.answered s rest (Claims.bit s.flag[f]) with flag := flags })

/-- spec/43_context_commands.md R85: `SETCTX v`. -/
def Obligations.SetctxWord : Prop :=
  ∀ (s : State) (w : CmdWord) (rest : List Event), Claims.arrives s w rest → Claims.op w = 0x07 →
    (w.extractLsb' 32 24 ≠ 0 → step s = .next (Claims.rejected s rest .badOperand)) ∧
    (w.extractLsb' 32 24 = 0 → Claims.ctxIllegal (Claims.imm w) →
      step s = .next (Claims.rejected s rest .badOperand)) ∧
    (w.extractLsb' 32 24 = 0 → ¬ Claims.ctxIllegal (Claims.imm w) →
      step s = .next { Claims.answered s rest 0 with ctx := Claims.imm w })

/-- spec/43_context_commands.md R86: `RDCTX`; in every state with the invariant the value has bits 31:8 and bit 3
clear and a mode of at most 5. -/
def Obligations.RdctxWord : Prop :=
  ∀ (s : State) (w : CmdWord) (rest : List Event), Claims.arrives s w rest → Claims.op w = 0x08 →
    (w.extractLsb' 0 56 ≠ 0 → step s = .next (Claims.rejected s rest .badOperand)) ∧
    (w.extractLsb' 0 56 = 0 → step s = .next (Claims.answered s rest s.ctx) ∧
      (s.Inv → ¬ Claims.ctxIllegal s.ctx))

/-! ### The instructions, as the machine performs them: completion, result and frame -/

/-- spec/43_context_commands.md, 41 and 42 (section of each command): `NOP`, `RDCNT`, `RDTRIG`, `RDFLAG`, `RDCTX`
complete on every state and every operand in range, answer what they read and change nothing else. -/
def Obligations.ReadingInstructionsComplete : Prop :=
  ∀ s : State,
    exec .nop s = .next (Claims.answered s s.inputs 0) ∧
    (∀ i : Channel, exec (.rdcnt (Claims.chId i)) s = .next (Claims.answered s s.inputs s.count[i])) ∧
    (∀ i : Channel, exec (.rdtrig (Claims.chId i)) s = .next (Claims.answered s s.inputs (Claims.bit s.trig[i]))) ∧
    (∀ f : Flag, exec (.rdflag (Claims.flagId f)) s = .next (Claims.answered s s.inputs (Claims.bit s.flag[f]))) ∧
    exec .rdctx s = .next (Claims.answered s s.inputs s.ctx)

/-- spec/42_trigger_commands.md, sections TAKE and TAKEF: both complete on every state and every operand in range,
answer the bit as it was and clear it; every other bit, every count, both dividers and `CTX` are unchanged. -/
def Obligations.TakingInstructionsComplete : Prop :=
  ∀ s : State,
    (∀ i : Channel, ∃ trigs, (∀ j : Channel, trigs[j] = if j = i then false else s.trig[j]) ∧
      exec (.take (Claims.chId i)) s =
        .next { Claims.answered s s.inputs (Claims.bit s.trig[i]) with trig := trigs }) ∧
    (∀ f : Flag, ∃ flags, (∀ k : Flag, flags[k] = if k = f then false else s.flag[k]) ∧
      exec (.takef (Claims.flagId f)) s =
        .next { Claims.answered s s.inputs (Claims.bit s.flag[f]) with flag := flags })

/-- spec/41_countdown_commands.md section ARM, spec/43_context_commands.md section SETCTX: `ARM` completes on every
state, every channel and every one of the 2^32 values, `SETCTX` on every state and every legal value; each writes
the one thing it names and leaves everything else, the pending triggers among it, as it was. Third clause: `exec` of
`SETCTX` on an illegal value, which the decoder never gives and no step runs, is rejected and changes nothing; that is
the model's choice, log 11 (the rejection of the arriving word is stated in SetctxWord). -/
def Obligations.WritingInstructionsComplete : Prop :=
  ∀ (s : State) (v : Word),
    (∀ i : Channel, ∃ counts', (∀ j : Channel, counts'[j] = if j = i then v else s.count[j]) ∧
      exec (.arm (Claims.chId i) v) s = .next { Claims.answered s s.inputs 0 with count := counts' }) ∧
    (¬ Claims.ctxIllegal v → exec (.setctx v) s = .next { Claims.answered s s.inputs 0 with ctx := v }) ∧
    (Claims.ctxIllegal v → exec (.setctx v) s = .next (Claims.rejected s s.inputs .badOperand))

/-- spec/40_tick.md R59, R75: a TICK completes on every state, as one step and without a response. Every count and
trigger, both dividers and both flags after it, each from its value before; `CTX` is not written. One pulse on the tick
port is one such step. The sum of `DIV50` is stated for the values it can hold, 0 to 49 (log 10 has the others). -/
def Obligations.TickCompletesWithoutResponse : Prop :=
  ∀ s : State, ∃ t, exec .tick s = .next t ∧
    (∀ i : Channel, t.count[i] = if gate i s.ctx = true ∧ s.count[i] ≠ 0 then s.count[i] - 1 else s.count[i]) ∧
    (∀ i : Channel, t.trig[i] = true ↔ s.trig[i] = true ∨ (gate i s.ctx = true ∧ s.count[i] = 1)) ∧
    t.div4.toNat = (s.div4.toNat + 1) % 4 ∧
    (t.flag[0] = true ↔ s.flag[0] = true ∨ t.div4 = 0) ∧
    (s.div50.toNat ≤ 49 → t.div50.toNat = (s.div50.toNat + 1) % 50) ∧
    (t.flag[1] = true ↔ s.flag[1] = true ∨ t.div50 = 0) ∧
    t.ctx = s.ctx ∧ t.inputs = s.inputs ∧ t.responses = s.responses ∧
    (∀ s₀ : State, ∀ rest, s₀.inputs = .step .tick :: rest → s = { s₀ with inputs := rest } → step s₀ = .next t)

/-- spec/40_tick.md R65: the decrement is exact subtraction of one from a count that is not zero, and nothing
else: no borrow, no wrap, no saturation; a closed gate and a zero count leave the count. No other instruction
computes with a count: it leaves every count, or it is an `ARM` and the new value is the operand. -/
def Obligations.DecrementIsExact : Prop :=
  (∀ s t : State, exec .tick s = .next t → ∀ i : Channel,
    (gate i s.ctx = true → s.count[i].toNat = 0 → t.count[i].toNat = 0) ∧
    (gate i s.ctx = true → 1 ≤ s.count[i].toNat → t.count[i].toNat + 1 = s.count[i].toNat) ∧
    (gate i s.ctx = false → t.count[i] = s.count[i])) ∧
  (∀ (ins : Instr) (s t : State) (i : Channel), ins ≠ .tick → exec ins s = .next t →
    t.count[i] = s.count[i] ∨ ∃ v, ins = .arm (Claims.chId i) v ∧ t.count[i] = v)

/-- spec/40_tick.md R66: a trigger is set by a TICK step exactly when the step brings the count from 1 to 0; a count
found at zero and a count brought to another value leave it; a trigger already set stays set. -/
def Obligations.TriggerSetExactlyOnExpiry : Prop :=
  ∀ s t : State, exec .tick s = .next t → ∀ i : Channel,
    (s.count[i] = 1 → t.count[i] = 0 → t.trig[i] = true) ∧
    (¬ (s.count[i] = 1 ∧ t.count[i] = 0) → t.trig[i] = s.trig[i]) ∧
    (s.trig[i] = true → t.trig[i] = true)

/-- spec/40_tick.md R70: what a TICK step never does: write `CTX`, clear a trigger or a flag, increase a count, reload
a count that has reached 0; and it never reads a trigger or a flag: counts, dividers and which bits it sets are the
same whatever bits are pending. -/
def Obligations.TickNeverClearsReloadsOrReadsPendingBits : Prop :=
  (∀ s t : State, exec .tick s = .next t →
    t.ctx = s.ctx ∧ (∀ i : Channel, s.trig[i] = true → t.trig[i] = true) ∧
    (∀ f : Flag, s.flag[f] = true → t.flag[f] = true) ∧
    (∀ i : Channel, t.count[i].toNat ≤ s.count[i].toNat) ∧ (∀ i : Channel, s.count[i] = 0 → t.count[i] = 0)) ∧
  (∀ s s' t t' : State, s.count = s'.count → s.ctx = s'.ctx → s.div4 = s'.div4 → s.div50 = s'.div50 →
    exec .tick s = .next t → exec .tick s' = .next t' →
    t.count = t'.count ∧ t.div4 = t'.div4 ∧ t.div50 = t'.div50 ∧
    (∀ i : Channel, s.trig[i] = false → t.trig[i] = true → t'.trig[i] = true) ∧
    (∀ f : Flag, s.flag[f] = false → t.flag[f] = true → t'.flag[f] = true))

/-! ### Gates -/

/-- spec/40_tick.md R60 to R64 and spec/10_state.md R16: the three gates over the bits of `CTX`, for every mode `CTX`
can hold (0 to 5; what the formulas give for 6 and 7 is log 9 and not stated here); every other channel is
ungated whatever `CTX` holds, and exactly channels 1, 2 and 10 are ever held; a TICK step skips a channel whose gate
is false entirely and decrements every other that is not zero; `CTX` has no effect on the coarse flags and the
dividers. -/
def Obligations.GatesReadTheContextAsStated : Prop :=
  (∀ ctx : Word, ctx.toNat % 8 ≤ 5 →
    (gate 1 ctx = true ↔ ctx.getLsbD 4 = true ∧ ctx.toNat % 8 ≠ 1 ∧ ctx.toNat % 8 ≠ 3 ∧ ctx.toNat % 8 ≠ 4) ∧
    (gate 10 ctx = true ↔ ctx.getLsbD 5 = true ∧ ctx.toNat % 8 ≠ 1 ∧ ctx.toNat % 8 ≠ 3 ∧ ctx.toNat % 8 ≠ 4) ∧
    (gate 2 ctx = true ↔
      (ctx.getLsbD 6 = true ∨ ctx.getLsbD 7 = true) ∧ ctx.toNat % 8 ≠ 4 ∧ ctx.toNat % 8 ≠ 3)) ∧
  (∀ (i : Channel) (ctx : Word), i ≠ 1 → i ≠ 2 → i ≠ 10 → gate i ctx = true) ∧
  (∀ i : Channel, i = 1 ∨ i = 2 ∨ i = 10 → ∃ ctx : Word, ¬ Claims.ctxIllegal ctx ∧ gate i ctx = false) ∧
  (∀ (s t : State) (i : Channel), exec .tick s = .next t →
    (gate i s.ctx = false → t.count[i] = s.count[i] ∧ t.trig[i] = s.trig[i]) ∧
    (gate i s.ctx = true → s.count[i] ≠ 0 → t.count[i] = s.count[i] - 1)) ∧
  (∀ (s t t' : State) (ctx' : Word), exec .tick s = .next t → exec .tick { s with ctx := ctx' } = .next t' →
    t'.flag = t.flag ∧ t'.div4 = t.div4 ∧ t'.div50 = t.div50)

/-- spec/40_tick.md section 5 (R74, an inference of the spec) and section 2: while the gate of a channel is false any
number of TICK steps leaves its count and its trigger as they were. -/
def Obligations.ClosedGateHoldsTheChannel : Prop :=
  ∀ (n : Nat) (s t : State) (rest : List Event) (i : Channel),
    s.inputs = List.replicate n (.step .tick) ++ rest → gate i s.ctx = false → RunsTo n s t →
    t.count[i] = s.count[i] ∧ t.trig[i] = s.trig[i]

/-- spec/20_memory.md section 4 (R40 item 2), spec/43_context_commands.md section SETCTX: a legal `SETCTX` acts on the
gates from the very next TICK step. -/
def Obligations.SetctxGatesTheNextTick : Prop :=
  ∀ (s : State) (v : Word) (rest : List Event) (i : Channel), ¬ Claims.ctxIllegal v →
    s.inputs = Claims.ev (.setctx v) :: .step .tick :: rest →
    ∃ t, RunsTo 2 s t ∧
      t.count[i] = (if gate i v = true ∧ s.count[i] ≠ 0 then s.count[i] - 1 else s.count[i]) ∧ t.ctx = v

/-! ### Who writes what -/

/-- spec/10_state.md section 7 (R26, an inference of the spec): what each instruction may write. No instruction but
those named writes the piece of state, and none takes an event from the ports. -/
def Obligations.InstructionsWriteOnlyWhatTheyMay : Prop :=
  ∀ (i : Instr) (s t : State), exec i s = .next t →
    ((∀ ch v, i ≠ .arm ch v) → i ≠ .tick → t.count = s.count) ∧
    ((∀ ch, i ≠ .take ch) → i ≠ .tick → t.trig = s.trig) ∧
    ((∀ f, i ≠ .takef f) → i ≠ .tick → t.flag = s.flag) ∧
    (i ≠ .tick → t.div4 = s.div4 ∧ t.div50 = s.div50) ∧
    ((∀ v, i ≠ .setctx v) → t.ctx = s.ctx) ∧
    t.inputs = s.inputs

/-- spec/10_state.md R13: a count changes only by a TICK step, which lowers it by one, by an `ARM` of its channel,
which sets it, and (R102) by reset; only the `ARM` can raise it. -/
def Obligations.CountWrittenOnlyByTickAndArm : Prop :=
  ∀ (s t : State) (i : Channel), step s = .next t → t.count[i] ≠ s.count[i] →
    (nextIsEnabledTick i s = true ∧ t.count[i].toNat + 1 = s.count[i].toNat) ∨
    (∃ v rest, s.inputs = Claims.ev (.arm (Claims.chId i) v) :: rest ∧ t.count[i] = v) ∨
    (∃ rest, s.inputs = .reset :: rest ∧ t.count[i] = 0)

/-- spec/10_state.md R14: a trigger is set only by the TICK step at which its count goes from 1 to 0, and cleared only
by the `TAKE` of its channel and by reset. -/
def Obligations.TriggerSetOnlyByExpiryClearedOnlyByTake : Prop :=
  ∀ (s t : State) (i : Channel), step s = .next t →
    (s.trig[i] = false → t.trig[i] = true → nextIsTick s = true ∧ s.count[i] = 1 ∧ t.count[i] = 0) ∧
    (s.trig[i] = true → t.trig[i] = false →
      ∃ rest, s.inputs = Claims.ev (.take (Claims.chId i)) :: rest ∨ s.inputs = .reset :: rest)

/-- spec/10_state.md R19: a coarse flag is set only by a TICK step, at its boundary, and cleared only by the `TAKEF` of
it and by reset. -/
def Obligations.FlagSetOnlyByTickClearedOnlyByTakef : Prop :=
  ∀ (s t : State) (f : Flag), step s = .next t →
    (s.flag[f] = false → t.flag[f] = true →
      nextIsTick s = true ∧ (f = 0 → t.div4 = 0) ∧ (f = 1 → t.div50 = 0)) ∧
    (s.flag[f] = true → t.flag[f] = false →
      ∃ rest, s.inputs = Claims.ev (.takef (Claims.flagId f)) :: rest ∨ s.inputs = .reset :: rest)

/-- spec/10_state.md R20, R21: the divider phases are written only by the TICK step and by reset, and `CTX` only by
a `SETCTX` of a legal value and by reset. -/
def Obligations.DividersAndContextWriters : Prop :=
  ∀ s t : State, step s = .next t →
    (t.div4 ≠ s.div4 ∨ t.div50 ≠ s.div50 → nextIsTick s = true ∨ ∃ rest, s.inputs = .reset :: rest) ∧
    (t.ctx ≠ s.ctx →
      (∃ v rest, s.inputs = Claims.ev (.setctx v) :: rest ∧ ¬ Claims.ctxIllegal v ∧ t.ctx = v) ∨
      (∃ rest, s.inputs = .reset :: rest ∧ t.ctx = 0))

/-- spec/10_state.md R18: channels are independent: what a channel's pair becomes along any run depends on the events,
on `CTX` and on that pair alone, whatever the other channels, the flags, the dividers and the responses hold; and
a command on one channel writes no other. -/
def Obligations.ChannelsAreIndependent : Prop :=
  (∀ (s t : State) (i j : Channel) (v : Word) (ins : Instr), j ≠ i →
    ins = .arm (Claims.chId j) v ∨ ins = .rdcnt (Claims.chId j) ∨ ins = .rdtrig (Claims.chId j) ∨
      ins = .take (Claims.chId j) →
    exec ins s = .next t → t.count[i] = s.count[i] ∧ t.trig[i] = s.trig[i]) ∧
  ∀ (n : Nat) (i : Channel) (s s' t t' : State), s.inputs = s'.inputs → s.ctx = s'.ctx →
    s.count[i] = s'.count[i] → s.trig[i] = s'.trig[i] → RunsTo n s t → RunsTo n s' t' →
    t.count[i] = t'.count[i] ∧ t.trig[i] = t'.trig[i]

/-! ### Laws of the tick along runs -/

/-- spec/40_tick.md R71: a TICK step lowers a count by one or leaves it, and along any run in which a channel is not
armed its count never rises, whatever else is done. -/
def Obligations.CountNeverRisesWithoutArm : Prop :=
  (∀ (s t : State) (i : Channel), exec .tick s = .next t →
    t.count[i].toNat ≤ s.count[i].toNat ∧ s.count[i].toNat ≤ t.count[i].toNat + 1) ∧
  (∀ (n : Nat) (s t : State) (i : Channel), (∀ e ∈ s.inputs.take n, armsChannel i e = false) → RunsTo n s t →
    t.count[i].toNat ≤ s.count[i].toNat)

/-- spec/40_tick.md R72: between two TICK steps that each set a trigger there is an `ARM` of its channel with a
positive value. -/
def Obligations.TriggerIsOneShot : Prop :=
  ∀ (n : Nat) (s t u : State) (i : Channel), setsTrigger i s = true → step s = .next t → RunsTo n t u →
    setsTrigger i u = true → ∃ e ∈ t.inputs.take n, rearmsChannel i e = true

/-- spec/40_tick.md section 5 (R73, an inference of the spec): the expiry law. Along any run without an `ARM` of the
channel and without a reset, from any state, the count falls by exactly the number of enabled TICK steps and stops at
0; and unless the trigger is taken on the way it is set at the end exactly if it was set at the start or the enabled
TICK steps were at least the count, which was not 0. -/
def Obligations.ExpiryLaw : Prop :=
  ∀ (n : Nat) (s t : State) (i : Channel),
    (∀ e ∈ s.inputs.take n, armsChannel i e = false ∧ e ≠ .reset) → RunsTo n s t →
    t.count[i].toNat = s.count[i].toNat - enabledTicks i n s ∧
    ((∀ e ∈ s.inputs.take n, takesTrigger i e = false) →
      (t.trig[i] = true ↔
        s.trig[i] = true ∨ (1 ≤ s.count[i].toNat ∧ s.count[i].toNat ≤ enabledTicks i n s)))

/-- spec/40_tick.md R67, R68: the dividers count the TICK steps since reset modulo 4 and modulo 50;
counting those steps from 1, a TICK step sets the 40 ms flag exactly at
every multiple of 4 and the half-second flag exactly at every multiple of 50, whatever commands fall between; a flag
already set stays set. -/
def Obligations.CoarseFlagsSetAtMultiplesSinceReset : Prop :=
  ∀ (n : Nat) (events : List Event) (t : State), .reset ∉ events →
    RunsTo n { State.reset with inputs := events } t → nextIsTick t = true →
    ∃ u, step t = .next u ∧
      t.div4.toNat = ticks n { State.reset with inputs := events } % 4 ∧
      u.div4.toNat = (t.div4.toNat + 1) % 4 ∧
      t.div50.toNat = ticks n { State.reset with inputs := events } % 50 ∧
      u.div50.toNat = (t.div50.toNat + 1) % 50 ∧
      (u.flag[0] = true ↔
        t.flag[0] = true ∨ (ticks n { State.reset with inputs := events } + 1) % 4 = 0) ∧
      (u.flag[1] = true ↔
        t.flag[1] = true ∨ (ticks n { State.reset with inputs := events } + 1) % 50 = 0)

/-- spec/70_reset_and_hazards.md section 5 (R114): under weak fairness of the TICK agent, in any endless sequence of
events without an `ARM` of the channel and without a reset, a running ungated channel expires after finitely many
steps: its trigger is set. -/
def Obligations.RunningUngatedChannelExpiresUnderFairness : Prop :=
  ∀ (s : State) (events : Nat → Event) (i : Channel), i ≠ 1 → i ≠ 2 → i ≠ 10 → WeaklyFair events →
    (∀ m, armsChannel i (events m) = false ∧ events m ≠ .reset) → s.count[i] ≠ 0 →
    ∃ n u, RunsTo n (s.awaiting events (n + 1)) u ∧ setsTrigger i u = true

/-- spec/70_reset_and_hazards.md section 5 (R114): any running channel, gated or not, expires if its gate is true at
infinitely many TICK steps: in any endless sequence of events without an `ARM` of the channel and without a reset, in
which after every number of steps a later next step is an enabled TICK step for the channel, its trigger is set after
finitely many steps. The sequence may hold any `SETCTX`, so the gate may open and close on the way. -/
def Obligations.RunningChannelExpiresIfItsGateKeepsOpening : Prop :=
  ∀ (s : State) (events : Nat → Event) (i : Channel),
    (∀ m, armsChannel i (events m) = false ∧ events m ≠ .reset) → s.count[i] ≠ 0 →
    (∀ n, ∃ m u, n ≤ m ∧ RunsTo m (s.awaiting events (m + 1)) u ∧ nextIsEnabledTick i u = true) →
    ∃ n u, RunsTo n (s.awaiting events (n + 1)) u ∧ setsTrigger i u = true

/-! ### Cancel, pending triggers, taking -/

/-- spec/41_countdown_commands.md R77: cancel sets the count to 0, and until an `ARM` with a positive value no later
step sets the trigger, so the count stays 0 and a trigger that is clear stays clear; cancelling an idle channel
changes nothing but gives its response. -/
def Obligations.CancelSuppressesTheTrigger : Prop :=
  ∀ (n : Nat) (s t : State) (i : Channel) (rest : List Event), s.inputs = Claims.ev (cancel (Claims.chId i)) :: rest →
    ((∀ e ∈ rest.take n, rearmsChannel i e = false) → RunsTo (n + 1) s t →
      t.count[i] = 0 ∧ (t.trig[i] = true → s.trig[i] = true)) ∧
    (s.count[i] = 0 → step s = .next (Claims.answered s rest 0))

/-- spec/41_countdown_commands.md R78: `ARM`, for any value, leaves the trigger as it is, set or clear; and a pending
one, whatever falls between but a `TAKE` of the channel and a reset, is still answered 1 by a later `TAKE`. -/
def Obligations.ArmKeepsAPendingTrigger : Prop :=
  (∀ (s t : State) (i : Channel) (v : Word), exec (.arm (Claims.chId i) v) s = .next t → t.trig = s.trig) ∧
  ∀ (s t : State) (i : Channel) (v : Word) (between : List Event), s.trig[i] = true →
    (∀ e ∈ between, takesTrigger i e = false ∧ e ≠ .reset) →
    s.inputs = Claims.ev (.arm (Claims.chId i) v) :: between ++ [Claims.ev (.take (Claims.chId i))] →
    RunsTo (between.length + 2) s t →
    t.responses.getLast? = some ⟨.ok, 1⟩ ∧ t.trig[i] = false

/-- spec/20_memory.md section 2 (R36), spec/70_reset_and_hazards.md section 3 (R109, an inference of the spec): a set
trigger or flag is delivered once: two takes of it with no TICK step between answer the bit and then 0, whatever other
commands fall between. -/
def Obligations.TakenBitIsDeliveredOnce : Prop :=
  (∀ (s t : State) (i : Channel) (between : List Event), .step .tick ∉ between →
    s.inputs = Claims.ev (.take (Claims.chId i)) :: between ++ [Claims.ev (.take (Claims.chId i))] →
    RunsTo (between.length + 2) s t →
    t.responses[s.responses.length]? = some ⟨.ok, Claims.bit s.trig[i]⟩ ∧
      t.responses.getLast? = some ⟨.ok, 0⟩) ∧
  (∀ (s t : State) (f : Flag) (between : List Event), .step .tick ∉ between →
    s.inputs = Claims.ev (.takef (Claims.flagId f)) :: between ++ [Claims.ev (.takef (Claims.flagId f))] →
    RunsTo (between.length + 2) s t →
    t.responses[s.responses.length]? = some ⟨.ok, Claims.bit s.flag[f]⟩ ∧
      t.responses.getLast? = some ⟨.ok, 0⟩)

/-- spec/70_reset_and_hazards.md section 3 (R107): `CANCEL ch` then `CLRTRIG ch` leaves the channel idle and its trigger
clear, from every state and whatever falls before, between and after that does not arm the channel with a positive
value; so the clear is final. -/
def Obligations.CancelThenClearLeavesNoResidue : Prop :=
  ∀ (s t : State) (i : Channel) (between after : List Event),
    (∀ e ∈ between ++ after, rearmsChannel i e = false) →
    s.inputs = Claims.ev (cancel (Claims.chId i)) :: between ++ Claims.ev (clrtrig (Claims.chId i)) :: after →
    RunsTo (between.length + after.length + 2) s t → t.count[i] = 0 ∧ t.trig[i] = false

/-- spec/70_reset_and_hazards.md section 3 (R107): `ARM ch, v` then `CLRTRIG ch` is not safe for any `v`: with `v` TICK
steps between, the gate being open, the clear drops the new run's own expiry. -/
def Obligations.ArmThenClearDropsTheExpiry : Prop :=
  ∀ (s t : State) (i : Channel) (v : Word), gate i s.ctx = true → v ≠ 0 →
    s.inputs = Claims.ev (.arm (Claims.chId i) v) :: List.replicate v.toNat (.step .tick) ++
      [Claims.ev (clrtrig (Claims.chId i))] →
    RunsTo (v.toNat + 2) s t →
    t.responses.getLast? = some ⟨.ok, 1⟩ ∧ t.count[i] = 0 ∧ t.trig[i] = false

/-- spec/20_memory.md section 4 (R40 item 3): a `RDCNT` after an `ARM` of the same channel answers the armed value, if no
TICK step, no other `ARM` of the channel and no reset falls between. -/
def Obligations.ArmedValueReadsBack : Prop :=
  ∀ (s t : State) (i : Channel) (v : Word) (between : List Event),
    (∀ e ∈ between, e ≠ .step .tick ∧ armsChannel i e = false ∧ e ≠ .reset) →
    s.inputs = Claims.ev (.arm (Claims.chId i) v) :: between ++ [Claims.ev (.rdcnt (Claims.chId i))] →
    RunsTo (between.length + 2) s t → t.responses.getLast? = some ⟨.ok, v⟩

/-- spec/60_exceptions.md section 3 (R93), spec/95_test_vectors.md section 2.8: a pulse and a `TAKE` that coincide may
fall in either order, both are states of the model, and the outcomes differ: with the TICK first the `TAKE` answers 1 and
the trigger ends clear, with the `TAKE` first it answers 0 and the trigger ends set. -/
def Obligations.TickAndTakeInEitherOrder : Prop :=
  ∀ (s : State) (i : Channel), gate i s.ctx = true → s.count[i] = 1 → s.trig[i] = false →
    (∃ t, RunsTo 2 { s with inputs := [.step .tick, Claims.ev (.take (Claims.chId i))] } t ∧
      t.responses = s.responses ++ [⟨.ok, 1⟩] ∧ t.count[i] = 0 ∧ t.trig[i] = false) ∧
    (∃ t, RunsTo 2 { s with inputs := [Claims.ev (.take (Claims.chId i)), .step .tick] } t ∧
      t.responses = s.responses ++ [⟨.ok, 0⟩] ∧ t.count[i] = 0 ∧ t.trig[i] = true)

/-! ### Context values -/

/-- spec/10_state.md R21, R22 and spec/30_encoding.md section 8: the legal context values are exactly those the field
spelling gives (six modes, four bits), and each field reads back as given. -/
def Obligations.LegalContextValuesAreTheFieldSpellings : Prop :=
  (∀ v : Word, ¬ Claims.ctxIllegal v ↔ ∃ m a b p q, v = ctxValue m a b p q) ∧
  (∀ m a b p q, ctxMode (ctxValue m a b p q) = modeCode m ∧ ctxDwEn (ctxValue m a b p q) = a ∧
    ctxNoaaEn (ctxValue m a b p q) = b ∧ ctxScanAct (ctxValue m a b p q) = p ∧
    ctxTscanAct (ctxValue m a b p q) = q)

/-- spec/30_encoding.md section 8 (R57): `SETMODE m`, two commands with any number of TICK steps between, from any state
with the invariant: the `RDCTX` answers `CTX`, the `SETCTX` made from that answer is accepted, the mode becomes `m` and
every other bit of `CTX` stays. -/
def Obligations.SetmodeChangesTheModeAlone : Prop :=
  ∀ (s t : State) (m : Mode) (k : Nat), s.Inv →
    s.inputs = Claims.ev .rdctx :: List.replicate k (.step .tick) ++ [Claims.ev (setmodeSecond m s.ctx)] →
    RunsTo (k + 2) s t →
    t.responses = s.responses ++ [⟨.ok, s.ctx⟩, ⟨.ok, 0⟩] ∧ ctxMode t.ctx = modeCode m ∧
      t.ctx.extractLsb' 3 29 = s.ctx.extractLsb' 3 29
end

