-- ==== Sys2Proof/Laws/Operands.lean ====
section
/-! SUPPORT. What each operand form and each part of the TICK computation gives, once; later proofs cite
these and unfold none of the definitions. -/

namespace Sys2Proof.Laws

open Sys2Proof.Machine

theorem channel?_eq_some_iff (id : IdField) (i : Channel) : channel? id = some i ↔ id.toNat = i.val := by
  unfold channel?
  split
  · simp [Fin.ext_iff]
  · have := i.isLt
    simp; omega

theorem channel?_eq_none_iff (id : IdField) : channel? id = none ↔ 20 ≤ id.toNat := by
  have : Config.nCh = 20 := rfl
  unfold channel?
  split <;> simp <;> omega

@[simp] theorem channel?_ofNat (i : Channel) : channel? (BitVec.ofNat 8 i.val) = some i := by
  have : i.val < 20 := i.isLt
  rw [channel?_eq_some_iff, BitVec.toNat_ofNat, Nat.mod_eq_of_lt (by omega)]

theorem flag?_eq_some_iff (id : IdField) (f : Flag) : flag? id = some f ↔ id.toNat = f.val := by
  unfold flag?
  split
  · simp [Fin.ext_iff]
  · have := f.isLt
    simp; omega

theorem flag?_eq_none_iff (id : IdField) : flag? id = none ↔ 2 ≤ id.toNat := by
  have : Config.nFlag = 2 := rfl
  unfold flag?
  split <;> simp <;> omega

@[simp] theorem flag?_ofNat (f : Flag) : flag? (BitVec.ofNat 8 f.val) = some f := by
  have : f.val < 2 := f.isLt
  rw [flag?_eq_some_iff, BitVec.toNat_ofNat, Nat.mod_eq_of_lt (by omega)]

theorem legalCtx_iff (v : Word) : legalCtx v = true ↔
    v.extractLsb' 8 24 = 0 ∧ v.getLsbD 3 = false ∧ (v.extractLsb' 0 3).toNat ≤ 5 := by
  have : Config.nMode = 6 := rfl
  unfold legalCtx
  simp only [Bool.and_eq_true, beq_iff_eq, Bool.not_eq_true', decide_eq_true_eq, and_assoc]
  constructor <;> rintro ⟨h1, h2, h3⟩ <;> exact ⟨h1, h2, by omega⟩

theorem zextBit_eq (b : Bool) : zextBit b = if b = true then 1 else 0 := rfl

/-! ### The gates -/

theorem gate_dualwatch (ctx : Word) : gate 1 ctx = (ctxDwEn ctx && modeLetsAlternate ctx) := rfl

theorem gate_scanpause (ctx : Word) :
    gate 2 ctx = ((ctxScanAct ctx || ctxTscanAct ctx) && modeLetsScan ctx) := rfl

theorem gate_noaa (ctx : Word) : gate 10 ctx = (ctxNoaaEn ctx && modeLetsAlternate ctx) := rfl

theorem gate_ungated {i : Channel} (h1 : i ≠ 1) (h2 : i ≠ 2) (h10 : i ≠ 10) (ctx : Word) : gate i ctx = true := by
  have v1 : i.val ≠ 1 := fun e => h1 (Fin.ext e)
  have v2 : i.val ≠ 2 := fun e => h2 (Fin.ext e)
  have v10 : i.val ≠ 10 := fun e => h10 (Fin.ext e)
  unfold gate
  split <;> simp_all

theorem ctxMode_bne_iff (ctx : Word) (k : BitVec 3) : (ctxMode ctx != k) = true ↔ ctx.toNat % 8 ≠ k.toNat := by
  simp only [bne_iff_ne, ne_eq, ← BitVec.toNat_inj, ctxMode]
  simp

/-! ### The parts of a TICK step -/

theorem counts_iff (g : Bool) (v : Word) : counts g v = true ↔ g = true ∧ v ≠ 0 := by
  simp [counts]

@[simp] theorem tickCount_closed (v : Word) : tickCount false v = v := by simp [tickCount, counts]

theorem tickCount_open_toNat (v : Word) : (tickCount true v).toNat = v.toNat - 1 := by
  unfold tickCount counts
  by_cases h : v = 0
  · simp [h]
  · have : v.toNat ≠ 0 := fun e => h (BitVec.eq_of_toNat_eq (by simpa using e))
    simp only [Bool.true_and, bne_iff_ne, ne_eq, h, not_false_eq_true, if_true]
    rw [BitVec.toNat_sub]
    have := v.isLt
    simp; omega

theorem tickCount_eq (g : Bool) (v : Word) : tickCount g v = if g = true ∧ v ≠ 0 then v - 1 else v := by
  simp only [tickCount, counts_iff]

theorem tickTrig_iff (g : Bool) (v : Word) (t : Bool) :
    tickTrig g v t = true ↔ t = true ∨ (g = true ∧ v = 1) := by
  unfold tickTrig
  by_cases h : v = 1
  · cases g <;> simp [h, counts]
  · have : ¬ v - 1 = 0 := fun e => h (by
      have := congrArg (· + 1) e
      simpa using this)
    simp only [Bool.and_eq_true, beq_iff_eq, this, h, and_false, or_false]
    simp

@[simp] theorem tickTrig_closed (v : Word) (t : Bool) : tickTrig false v t = t := by simp [tickTrig, counts]

theorem nextDiv4_toNat (d : BitVec 2) : (nextDiv4 d).toNat = (d.toNat + 1) % 4 := by
  have : (d.toNat + 1) % 4 < 4 := Nat.mod_lt _ (by omega)
  simp [nextDiv4, Config.div40]

theorem nextDiv50_toNat (d : BitVec 6) : (nextDiv50 d).toNat = (d.toNat + 1) % 50 := by
  have : (d.toNat + 1) % 50 < 50 := Nat.mod_lt _ (by omega)
  simp [nextDiv50, Config.div500]
  omega

theorem tickF40_iff (d : BitVec 2) (f : Bool) : tickF40 d f = true ↔ f = true ∨ nextDiv4 d = 0 := by
  unfold tickF40
  split <;> simp_all

theorem tickF500_iff (d : BitVec 6) (f : Bool) : tickF500 d f = true ↔ f = true ∨ nextDiv50 d = 0 := by
  unfold tickF500
  split <;> simp_all

end Sys2Proof.Laws
end

