-- ==== Sys2Proof/Laws/Context.lean ====
section
/-! SUPPORT. The context values the pseudo-instructions make, bit by bit. -/

namespace Sys2Proof.Laws

open Sys2Proof.Machine

/-- The mask of `SETMODE` keeps the bits from 3 on. -/
theorem setmode_mask_getLsbD : ∀ i < 32, (0xFFFFFFF8 : Word).getLsbD i = decide (3 ≤ i) := by decide

/-- Replacing the low three bits as `SETMODE` does: they become `k`, the others stay. -/
theorem withMode_getLsbD (v : Word) (k : BitVec 3) (i : Nat) (h : i < 32) :
    (v &&& 0xFFFFFFF8 ||| k.setWidth 32).getLsbD i = if i < 3 then k.getLsbD i else v.getLsbD i := by
  simp only [BitVec.getLsbD_or, BitVec.getLsbD_and, setmode_mask_getLsbD i h, BitVec.getLsbD_setWidth, h, decide_true,
    Bool.true_and]
  split
  · rw [decide_eq_false (by omega), Bool.and_false, Bool.false_or]
  · rw [decide_eq_true (by omega), BitVec.getLsbD_of_ge k i (by omega), Bool.and_true, Bool.or_false]

/-- A single bit as a word has bit 0 only. -/
theorem zextBit_getLsbD (b : Bool) (i : Nat) : (zextBit b).getLsbD i = (b && decide (i = 0)) := by
  cases b
  · simp [zextBit]
  · simp only [zextBit, if_true, Bool.true_and]
    by_cases h : i = 0
    · simp [h]
    · simp [h, BitVec.getLsbD_one]

end Sys2Proof.Laws
end

