-- ==== Sys2Proof/Laws/Decode.lean ====
section
/-! SUPPORT. The fields of a command word, the must-be-zero masks as fields, and the four outcomes of the
decoder, one lemma each. -/

namespace Sys2Proof.Laws

open Sys2Proof.Machine

@[simp] theorem opField_packWord (op : Opcode) (id : IdField) (imm : Word) :
    opField (packWord op id imm) = opcodeByte op := by
  apply BitVec.eq_of_getLsbD_eq
  intro i hi
  simp only [opField, packWord, BitVec.getLsbD_extractLsb', BitVec.getLsbD_append, hi, decide_true, Bool.true_and]
  rw [if_neg (by omega), if_neg (by omega), if_neg (by omega)]
  congr 1; omega

@[simp] theorem idField_packWord (op : Opcode) (id : IdField) (imm : Word) :
    idField (packWord op id imm) = id := by
  apply BitVec.eq_of_getLsbD_eq
  intro i hi
  simp only [idField, packWord, BitVec.getLsbD_extractLsb', BitVec.getLsbD_append, hi, decide_true, Bool.true_and]
  rw [if_neg (by omega), if_neg (by omega), if_pos (by omega)]
  congr 1; omega

@[simp] theorem immField_packWord (op : Opcode) (id : IdField) (imm : Word) :
    immField (packWord op id imm) = imm := by
  apply BitVec.eq_of_getLsbD_eq
  intro i hi
  simp only [immField, packWord, BitVec.getLsbD_extractLsb', BitVec.getLsbD_append, hi, decide_true, Bool.true_and]
  rw [if_pos (by omega)]
  congr 1; omega

/-- A word is its four fields. -/
theorem cmdWord_eq_fields (w : CmdWord) :
    w = opField w ++ idField w ++ w.extractLsb' 32 16 ++ immField w := by
  apply BitVec.eq_of_getLsbD_eq
  intro i hi
  simp only [opField, idField, immField, BitVec.getLsbD_extractLsb', BitVec.getLsbD_append]
  split_ifs with h1 h2 h3
  · simp [h1]
  · rw [decide_eq_true (by omega : i - 32 < 16), Bool.true_and]; congr 1; omega
  · rw [decide_eq_true (by omega : i - 32 - 16 < 8), Bool.true_and]; congr 1; omega
  · rw [decide_eq_true (by omega : i - 32 - 16 - 8 < 8), Bool.true_and]; congr 1; omega

/-- A run of ones as a mask tests exactly the field it covers. -/
theorem and_mask_eq_zero_iff (w : CmdWord) (start len : Nat) (h : start + len ≤ 64) :
    w &&& ((BitVec.allOnes len).setWidth 64 <<< start) = 0 ↔ w.extractLsb' start len = 0 := by
  constructor
  · intro e
    apply BitVec.eq_of_getLsbD_eq
    intro i hi
    have := congrArg (fun v : CmdWord => v.getLsbD (start + i)) e
    simp only [BitVec.getLsbD_and, BitVec.getLsbD_shiftLeft, BitVec.getLsbD_setWidth, BitVec.getLsbD_allOnes] at this
    simpa [hi, show start + i < 64 by omega, show i < 64 by omega] using this
  · intro e
    apply BitVec.eq_of_getLsbD_eq
    intro i hi
    simp only [BitVec.getLsbD_and, BitVec.getLsbD_shiftLeft, BitVec.getLsbD_setWidth, BitVec.getLsbD_allOnes]
    by_cases k : start ≤ i ∧ i - start < len
    · have := congrArg (fun v : BitVec len => v.getLsbD (i - start)) e
      simp only [BitVec.getLsbD_extractLsb', k.2, show start + (i - start) = i by omega] at this
      have hw : w.getLsbD i = false := by simpa using this
      simp [hw]
    · simp; intro _ _ ; omega
/-- The must-be-zero mask of each format, as the field it covers (spec/30_encoding.md R50). -/
theorem mbzMask_iff (fmt : Format) (w : CmdWord) : w &&& mbzMask fmt = 0 ↔
    match fmt with
    | .z => w.extractLsb' 0 56 = 0
    | .c | .f => w.extractLsb' 0 48 = 0
    | .ci => w.extractLsb' 32 16 = 0
    | .i => w.extractLsb' 32 24 = 0 := by
  cases fmt
  · exact and_mask_eq_zero_iff w 0 56 (by decide)
  · exact and_mask_eq_zero_iff w 0 48 (by decide)
  · exact and_mask_eq_zero_iff w 32 16 (by decide)
  · exact and_mask_eq_zero_iff w 0 48 (by decide)
  · exact and_mask_eq_zero_iff w 32 24 (by decide)

theorem opcode?_eq_some_iff (b : BitVec 8) (op : Opcode) : opcode? b = some op ↔ b = opcodeByte op := by
  constructor
  · revert b
    cases op <;> decide
  · rintro rfl
    cases op <;> rfl

theorem opcode?_eq_none_iff (b : BitVec 8) : opcode? b = none ↔ 8 < b.toNat := by
  revert b
  decide

/-! ### The outcomes of the decoder in their order (spec/30_encoding.md R58) -/

theorem decode_badOpcode {w : CmdWord} (h : 8 < (opField w).toNat) :
    decode (.command w) = .rejected .badOpcode := by
  simp [decode, decodeCommand, (opcode?_eq_none_iff _).2 h]

theorem decode_mbz {w : CmdWord} {op : Opcode} (h : opField w = opcodeByte op)
    (hz : w &&& mbzMask (formatOf op) ≠ 0) : decode (.command w) = .rejected .badOperand := by
  simp only [decode, decodeCommand, (opcode?_eq_some_iff _ _).2 h, if_pos hz]

theorem decode_operandFault {w : CmdWord} {op : Opcode} {st : Status} (h : opField w = opcodeByte op)
    (hz : w &&& mbzMask (formatOf op) = 0) (hf : operandFault? op (idField w) (immField w) = some st) :
    decode (.command w) = .rejected st := by
  simp only [decode, decodeCommand, (opcode?_eq_some_iff _ _).2 h, hz, hf, ne_eq, not_true_eq_false, if_false]

theorem decode_instr {w : CmdWord} {op : Opcode} (h : opField w = opcodeByte op)
    (hz : w &&& mbzMask (formatOf op) = 0) (hf : operandFault? op (idField w) (immField w) = none) :
    decode (.command w) = .instr (instrOf op (idField w) (immField w)) := by
  simp only [decode, decodeCommand, (opcode?_eq_some_iff _ _).2 h, hz, hf, ne_eq, not_true_eq_false, if_false]

/-- Everything the decoder can make of a command word. -/
theorem decode_command_cases (w : CmdWord) :
    (8 < (opField w).toNat ∧ decode (.command w) = .rejected .badOpcode) ∨
    ∃ op, opField w = opcodeByte op ∧
      ((w &&& mbzMask (formatOf op) ≠ 0 ∧ decode (.command w) = .rejected .badOperand) ∨
       (w &&& mbzMask (formatOf op) = 0 ∧
         ((∃ st, operandFault? op (idField w) (immField w) = some st ∧ decode (.command w) = .rejected st) ∨
          (operandFault? op (idField w) (immField w) = none ∧
            decode (.command w) = .instr (instrOf op (idField w) (immField w)))))) := by
  cases ho : opcode? (opField w) with
  | none =>
    have h := (opcode?_eq_none_iff _).1 ho
    exact .inl ⟨h, decode_badOpcode h⟩
  | some op =>
    have h := (opcode?_eq_some_iff _ _).1 ho
    refine .inr ⟨op, h, ?_⟩
    by_cases hz : w &&& mbzMask (formatOf op) = 0
    · refine .inr ⟨hz, ?_⟩
      cases hf : operandFault? op (idField w) (immField w) with
      | some st => exact .inl ⟨st, rfl, decode_operandFault h hz hf⟩
      | none => exact .inr ⟨rfl, decode_instr h hz hf⟩
    · exact .inl ⟨hz, decode_mbz h hz⟩

theorem operandFault?_eq_none_iff (op : Opcode) (id : IdField) (imm : Word) :
    operandFault? op id imm = none ↔ (instrOf op id imm).wf = true := by
  cases op <;> simp [operandFault?, formatOf, instrOf, Instr.wf, ← Option.isSome_iff_ne_none]

theorem decode_command_ne_tick (w : CmdWord) : decode (.command w) ≠ .instr .tick := by
  obtain ⟨_, e⟩ | ⟨op, _, ⟨_, e⟩ | ⟨_, ⟨_, _, e⟩ | ⟨_, e⟩⟩⟩ := decode_command_cases w
  all_goals rw [e]
  · simp
  · simp
  · simp
  · cases op <;> simp [instrOf]

theorem eq_tick_of_decode {x : TraceStep} (h : decode x = .instr .tick) : x = .tick := by
  cases x with
  | tick => rfl
  | command w => exact absurd h (decode_command_ne_tick w)

/-- Only legal instructions are ever decoded. -/
theorem wf_of_decode {x : TraceStep} {i : Instr} (h : decode x = .instr i) : i.wf = true := by
  cases x with
  | tick => cases h; rfl
  | command w =>
    obtain ⟨_, e⟩ | ⟨op, _, ⟨_, e⟩ | ⟨_, ⟨_, _, e⟩ | ⟨hn, e⟩⟩⟩ := decode_command_cases w
    all_goals cases h.symm.trans e
    exact (operandFault?_eq_none_iff op _ _).1 hn

end Sys2Proof.Laws
end

