-- ==== Sys2Proof/Laws/State.lean ====
section
/-! SUPPORT. One lemma per field per update of the state, each true by rfl, so that no later proof unfolds a
record update. -/

namespace Sys2Proof.Laws

open Sys2Proof.Machine

/-! ### writeCount -/

@[simp] theorem writeCount_count (i : Channel) (v : Word) (s : State) : (writeCount i v s).count = s.count.set i v := rfl
@[simp] theorem writeCount_trig (i : Channel) (v : Word) (s : State) : (writeCount i v s).trig = s.trig := rfl
@[simp] theorem writeCount_flag (i : Channel) (v : Word) (s : State) : (writeCount i v s).flag = s.flag := rfl
@[simp] theorem writeCount_div4 (i : Channel) (v : Word) (s : State) : (writeCount i v s).div4 = s.div4 := rfl
@[simp] theorem writeCount_div50 (i : Channel) (v : Word) (s : State) : (writeCount i v s).div50 = s.div50 := rfl
@[simp] theorem writeCount_ctx (i : Channel) (v : Word) (s : State) : (writeCount i v s).ctx = s.ctx := rfl
@[simp] theorem writeCount_inputs (i : Channel) (v : Word) (s : State) : (writeCount i v s).inputs = s.inputs := rfl
@[simp] theorem writeCount_responses (i : Channel) (v : Word) (s : State) : (writeCount i v s).responses = s.responses := rfl

/-! ### clearTrig -/

@[simp] theorem clearTrig_count (i : Channel) (s : State) : (clearTrig i s).count = s.count := rfl
@[simp] theorem clearTrig_trig (i : Channel) (s : State) : (clearTrig i s).trig = s.trig.set i false := rfl
@[simp] theorem clearTrig_flag (i : Channel) (s : State) : (clearTrig i s).flag = s.flag := rfl
@[simp] theorem clearTrig_div4 (i : Channel) (s : State) : (clearTrig i s).div4 = s.div4 := rfl
@[simp] theorem clearTrig_div50 (i : Channel) (s : State) : (clearTrig i s).div50 = s.div50 := rfl
@[simp] theorem clearTrig_ctx (i : Channel) (s : State) : (clearTrig i s).ctx = s.ctx := rfl
@[simp] theorem clearTrig_inputs (i : Channel) (s : State) : (clearTrig i s).inputs = s.inputs := rfl
@[simp] theorem clearTrig_responses (i : Channel) (s : State) : (clearTrig i s).responses = s.responses := rfl

/-! ### clearFlag -/

@[simp] theorem clearFlag_count (f : Flag) (s : State) : (clearFlag f s).count = s.count := rfl
@[simp] theorem clearFlag_trig (f : Flag) (s : State) : (clearFlag f s).trig = s.trig := rfl
@[simp] theorem clearFlag_flag (f : Flag) (s : State) : (clearFlag f s).flag = s.flag.set f false := rfl
@[simp] theorem clearFlag_div4 (f : Flag) (s : State) : (clearFlag f s).div4 = s.div4 := rfl
@[simp] theorem clearFlag_div50 (f : Flag) (s : State) : (clearFlag f s).div50 = s.div50 := rfl
@[simp] theorem clearFlag_ctx (f : Flag) (s : State) : (clearFlag f s).ctx = s.ctx := rfl
@[simp] theorem clearFlag_inputs (f : Flag) (s : State) : (clearFlag f s).inputs = s.inputs := rfl
@[simp] theorem clearFlag_responses (f : Flag) (s : State) : (clearFlag f s).responses = s.responses := rfl

/-! ### writeCtx -/

@[simp] theorem writeCtx_count (v : Word) (s : State) : (writeCtx v s).count = s.count := rfl
@[simp] theorem writeCtx_trig (v : Word) (s : State) : (writeCtx v s).trig = s.trig := rfl
@[simp] theorem writeCtx_flag (v : Word) (s : State) : (writeCtx v s).flag = s.flag := rfl
@[simp] theorem writeCtx_div4 (v : Word) (s : State) : (writeCtx v s).div4 = s.div4 := rfl
@[simp] theorem writeCtx_div50 (v : Word) (s : State) : (writeCtx v s).div50 = s.div50 := rfl
@[simp] theorem writeCtx_ctx (v : Word) (s : State) : (writeCtx v s).ctx = v := rfl
@[simp] theorem writeCtx_inputs (v : Word) (s : State) : (writeCtx v s).inputs = s.inputs := rfl
@[simp] theorem writeCtx_responses (v : Word) (s : State) : (writeCtx v s).responses = s.responses := rfl

/-! ### emit -/

@[simp] theorem emit_count (r : Response) (s : State) : (emit r s).count = s.count := rfl
@[simp] theorem emit_trig (r : Response) (s : State) : (emit r s).trig = s.trig := rfl
@[simp] theorem emit_flag (r : Response) (s : State) : (emit r s).flag = s.flag := rfl
@[simp] theorem emit_div4 (r : Response) (s : State) : (emit r s).div4 = s.div4 := rfl
@[simp] theorem emit_div50 (r : Response) (s : State) : (emit r s).div50 = s.div50 := rfl
@[simp] theorem emit_ctx (r : Response) (s : State) : (emit r s).ctx = s.ctx := rfl
@[simp] theorem emit_inputs (r : Response) (s : State) : (emit r s).inputs = s.inputs := rfl
@[simp] theorem emit_responses (r : Response) (s : State) : (emit r s).responses = s.responses ++ [r] := rfl

/-! ### tickChannels -/

@[simp] theorem tickChannels_count (s : State) : (tickChannels s).count = s.count.mapFinIdx fun i v h => tickCount (gate ⟨i, h⟩ s.ctx) v := rfl
@[simp] theorem tickChannels_trig (s : State) : (tickChannels s).trig = s.trig.mapFinIdx fun i t h => tickTrig (gate ⟨i, h⟩ s.ctx) s.count[i] t := rfl
@[simp] theorem tickChannels_flag (s : State) : (tickChannels s).flag = s.flag := rfl
@[simp] theorem tickChannels_div4 (s : State) : (tickChannels s).div4 = s.div4 := rfl
@[simp] theorem tickChannels_div50 (s : State) : (tickChannels s).div50 = s.div50 := rfl
@[simp] theorem tickChannels_ctx (s : State) : (tickChannels s).ctx = s.ctx := rfl
@[simp] theorem tickChannels_inputs (s : State) : (tickChannels s).inputs = s.inputs := rfl
@[simp] theorem tickChannels_responses (s : State) : (tickChannels s).responses = s.responses := rfl

/-! ### tickDiv4 -/

@[simp] theorem tickDiv4_count (s : State) : (tickDiv4 s).count = s.count := rfl
@[simp] theorem tickDiv4_trig (s : State) : (tickDiv4 s).trig = s.trig := rfl
@[simp] theorem tickDiv4_flag (s : State) : (tickDiv4 s).flag = s.flag.set 0 (tickF40 s.div4 s.flag[0]) := rfl
@[simp] theorem tickDiv4_div4 (s : State) : (tickDiv4 s).div4 = nextDiv4 s.div4 := rfl
@[simp] theorem tickDiv4_div50 (s : State) : (tickDiv4 s).div50 = s.div50 := rfl
@[simp] theorem tickDiv4_ctx (s : State) : (tickDiv4 s).ctx = s.ctx := rfl
@[simp] theorem tickDiv4_inputs (s : State) : (tickDiv4 s).inputs = s.inputs := rfl
@[simp] theorem tickDiv4_responses (s : State) : (tickDiv4 s).responses = s.responses := rfl

/-! ### tickDiv50 -/

@[simp] theorem tickDiv50_count (s : State) : (tickDiv50 s).count = s.count := rfl
@[simp] theorem tickDiv50_trig (s : State) : (tickDiv50 s).trig = s.trig := rfl
@[simp] theorem tickDiv50_flag (s : State) : (tickDiv50 s).flag = s.flag.set 1 (tickF500 s.div50 s.flag[1]) := rfl
@[simp] theorem tickDiv50_div4 (s : State) : (tickDiv50 s).div4 = s.div4 := rfl
@[simp] theorem tickDiv50_div50 (s : State) : (tickDiv50 s).div50 = nextDiv50 s.div50 := rfl
@[simp] theorem tickDiv50_ctx (s : State) : (tickDiv50 s).ctx = s.ctx := rfl
@[simp] theorem tickDiv50_inputs (s : State) : (tickDiv50 s).inputs = s.inputs := rfl
@[simp] theorem tickDiv50_responses (s : State) : (tickDiv50 s).responses = s.responses := rfl

/-! ### resetBlock -/

@[simp] theorem resetBlock_count (s : State) : (resetBlock s).count = State.reset.count := rfl
@[simp] theorem resetBlock_trig (s : State) : (resetBlock s).trig = State.reset.trig := rfl
@[simp] theorem resetBlock_flag (s : State) : (resetBlock s).flag = State.reset.flag := rfl
@[simp] theorem resetBlock_div4 (s : State) : (resetBlock s).div4 = State.reset.div4 := rfl
@[simp] theorem resetBlock_div50 (s : State) : (resetBlock s).div50 = State.reset.div50 := rfl
@[simp] theorem resetBlock_ctx (s : State) : (resetBlock s).ctx = State.reset.ctx := rfl
@[simp] theorem resetBlock_inputs (s : State) : (resetBlock s).inputs = s.inputs := rfl
@[simp] theorem resetBlock_responses (s : State) : (resetBlock s).responses = s.responses := rfl

/-! ### presentNext -/

@[simp] theorem presentNext_count (x : TraceStep) (s : State) : (presentNext x s).count = s.count := rfl
@[simp] theorem presentNext_trig (x : TraceStep) (s : State) : (presentNext x s).trig = s.trig := rfl
@[simp] theorem presentNext_flag (x : TraceStep) (s : State) : (presentNext x s).flag = s.flag := rfl
@[simp] theorem presentNext_div4 (x : TraceStep) (s : State) : (presentNext x s).div4 = s.div4 := rfl
@[simp] theorem presentNext_div50 (x : TraceStep) (s : State) : (presentNext x s).div50 = s.div50 := rfl
@[simp] theorem presentNext_ctx (x : TraceStep) (s : State) : (presentNext x s).ctx = s.ctx := rfl
@[simp] theorem presentNext_inputs (x : TraceStep) (s : State) : (presentNext x s).inputs = .step x :: s.inputs := rfl
@[simp] theorem presentNext_responses (x : TraceStep) (s : State) : (presentNext x s).responses = s.responses := rfl

end Sys2Proof.Laws
end

