-- ==== Sys2Proof/Laws/Ops.lean ====
section
/-! SUPPORT. What each shared operation and each instruction can do, once: one inversion lemma each, which later
proofs cite instead of unfolding. -/

namespace Sys2Proof.Laws

open Sys2Proof.Machine

theorem respond_eq (d : Word) (s : State) : respond d s = .next (emit ⟨.ok, d⟩ s) := rfl

theorem reject_eq (st : Status) (s : State) : reject st s = .next (emit ⟨st, 0⟩ s) := rfl

theorem onChannel_some {ch : IdField} {i : Channel} (h : channel? ch = some i) (s : State)
    (effect : Channel → Result) : onChannel ch s effect = effect i := by
  simp [onChannel, h]

theorem onChannel_none {ch : IdField} (h : channel? ch = none) (s : State) (effect : Channel → Result) :
    onChannel ch s effect = reject .badId s := by
  simp [onChannel, h]

theorem onFlag_some {f : IdField} {k : Flag} (h : flag? f = some k) (s : State) (effect : Flag → Result) :
    onFlag f s effect = effect k := by
  simp [onFlag, h]

theorem onFlag_none {f : IdField} (h : flag? f = none) (s : State) (effect : Flag → Result) :
    onFlag f s effect = reject .badId s := by
  simp [onFlag, h]

/-- Everything a command on a channel can do. -/
theorem onChannel_cases {ch : IdField} {s : State} {effect : Channel → Result} {r : Result}
    (h : onChannel ch s effect = r) :
    (channel? ch = none ∧ r = .next (emit ⟨.badId, 0⟩ s)) ∨ ∃ i, channel? ch = some i ∧ r = effect i := by
  cases hc : channel? ch with
  | none => exact .inl ⟨rfl, by rw [← h, onChannel_none hc, reject_eq]⟩
  | some i => exact .inr ⟨i, rfl, by rw [← h, onChannel_some hc]⟩

/-- Everything a command on a coarse flag can do. -/
theorem onFlag_cases {f : IdField} {s : State} {effect : Flag → Result} {r : Result}
    (h : onFlag f s effect = r) :
    (flag? f = none ∧ r = .next (emit ⟨.badId, 0⟩ s)) ∨ ∃ k, flag? f = some k ∧ r = effect k := by
  cases hc : flag? f with
  | none => exact .inl ⟨rfl, by rw [← h, onFlag_none hc, reject_eq]⟩
  | some k => exact .inr ⟨k, rfl, by rw [← h, onFlag_some hc]⟩

/-! ### The commands on a channel or a flag that exists -/

theorem exec_arm {ch : IdField} {i : Channel} (h : channel? ch = some i) (v : Word) (s : State) :
    exec (.arm ch v) s = .next (emit ⟨.ok, 0⟩ (writeCount i v s)) := onChannel_some h _ _

theorem exec_rdcnt {ch : IdField} {i : Channel} (h : channel? ch = some i) (s : State) :
    exec (.rdcnt ch) s = .next (emit ⟨.ok, s.count[i]⟩ s) := onChannel_some h _ _

theorem exec_rdtrig {ch : IdField} {i : Channel} (h : channel? ch = some i) (s : State) :
    exec (.rdtrig ch) s = .next (emit ⟨.ok, zextBit s.trig[i]⟩ s) := onChannel_some h _ _

theorem exec_take {ch : IdField} {i : Channel} (h : channel? ch = some i) (s : State) :
    exec (.take ch) s = .next (emit ⟨.ok, zextBit s.trig[i]⟩ (clearTrig i s)) := onChannel_some h _ _

theorem exec_rdflag {f : IdField} {k : Flag} (h : flag? f = some k) (s : State) :
    exec (.rdflag f) s = .next (emit ⟨.ok, zextBit s.flag[k]⟩ s) := onFlag_some h _ _

theorem exec_takef {f : IdField} {k : Flag} (h : flag? f = some k) (s : State) :
    exec (.takef f) s = .next (emit ⟨.ok, zextBit s.flag[k]⟩ (clearFlag k s)) := onFlag_some h _ _

theorem exec_setctx_legal {v : Word} (h : legalCtx v = true) (s : State) :
    exec (.setctx v) s = .next (emit ⟨.ok, 0⟩ (writeCtx v s)) := if_pos h

theorem exec_setctx_illegal {v : Word} (h : legalCtx v = false) (s : State) :
    exec (.setctx v) s = .next (emit ⟨.badOperand, 0⟩ s) := if_neg (by simp [h])

/-! ### What an instruction can do -/

/-- The instructions that write nothing on any operand. -/
def readsOnly : Instr → Bool
  | .nop => true
  | .arm _ _ => false
  | .rdcnt _ => true
  | .rdtrig _ => true
  | .take _ => false
  | .rdflag _ => true
  | .takef _ => false
  | .setctx _ => false
  | .rdctx => true
  | .tick => false

/-- What one instruction may do to the state it is performed on, one constructor for each way: the answer of a
command that writes nothing (one that only reads, or one with an operand out of range), the five writes, and the
TICK. -/
inductive Effect (s : State) : Instr → State → Prop where
  | silent (i : Instr) (r : Response) (h : readsOnly i = true ∨ i.wf = false) : Effect s i (emit r s)
  | armed (ch : IdField) (i : Channel) (v : Word) (h : channel? ch = some i) :
      Effect s (.arm ch v) (emit ⟨.ok, 0⟩ (writeCount i v s))
  | taken (ch : IdField) (i : Channel) (h : channel? ch = some i) :
      Effect s (.take ch) (emit ⟨.ok, zextBit s.trig[i]⟩ (clearTrig i s))
  | flagTaken (f : IdField) (k : Flag) (h : flag? f = some k) :
      Effect s (.takef f) (emit ⟨.ok, zextBit s.flag[k]⟩ (clearFlag k s))
  | ctxSet (v : Word) (h : legalCtx v = true) : Effect s (.setctx v) (emit ⟨.ok, 0⟩ (writeCtx v s))
  | ticked : Effect s .tick (tickDiv50 (tickDiv4 (tickChannels s)))

/-- Every instruction completes, with one of the effects. -/
theorem exec_effect (i : Instr) (s : State) : ∃ t, exec i s = .next t ∧ Effect s i t := by
  cases i with
  | nop => exact ⟨_, rfl, .silent _ _ (.inl rfl)⟩
  | arm ch v =>
    obtain ⟨h, e⟩ | ⟨i, h, e⟩ := onChannel_cases (rfl : execArm ch v s = _)
    · exact ⟨_, e, .silent _ _ (.inr (by simp [Instr.wf, h]))⟩
    · exact ⟨_, e, .armed ch i v h⟩
  | rdcnt ch =>
    obtain ⟨h, e⟩ | ⟨i, h, e⟩ := onChannel_cases (rfl : execRdcnt ch s = _)
    · exact ⟨_, e, .silent _ _ (.inl rfl)⟩
    · exact ⟨_, e, .silent _ _ (.inl rfl)⟩
  | rdtrig ch =>
    obtain ⟨h, e⟩ | ⟨i, h, e⟩ := onChannel_cases (rfl : execRdtrig ch s = _)
    · exact ⟨_, e, .silent _ _ (.inl rfl)⟩
    · exact ⟨_, e, .silent _ _ (.inl rfl)⟩
  | take ch =>
    obtain ⟨h, e⟩ | ⟨i, h, e⟩ := onChannel_cases (rfl : execTake ch s = _)
    · exact ⟨_, e, .silent _ _ (.inr (by simp [Instr.wf, h]))⟩
    · exact ⟨_, e, .taken ch i h⟩
  | rdflag f =>
    obtain ⟨h, e⟩ | ⟨k, h, e⟩ := onFlag_cases (rfl : execRdflag f s = _)
    · exact ⟨_, e, .silent _ _ (.inl rfl)⟩
    · exact ⟨_, e, .silent _ _ (.inl rfl)⟩
  | takef f =>
    obtain ⟨h, e⟩ | ⟨k, h, e⟩ := onFlag_cases (rfl : execTakef f s = _)
    · exact ⟨_, e, .silent _ _ (.inr (by simp [Instr.wf, h]))⟩
    · exact ⟨_, e, .flagTaken f k h⟩
  | setctx v =>
    cases h : legalCtx v with
    | true => exact ⟨_, exec_setctx_legal h s, .ctxSet v h⟩
    | false => exact ⟨_, exec_setctx_illegal h s, .silent _ _ (.inr h)⟩
  | rdctx => exact ⟨_, rfl, .silent _ _ (.inl rfl)⟩
  | tick => exact ⟨_, rfl, .ticked⟩

/-- The inversion lemma of exec: whatever it answers is a next state with one of the effects. -/
theorem effect_of_exec {i : Instr} {s t : State} (h : exec i s = .next t) : Effect s i t := by
  obtain ⟨u, hu, he⟩ := exec_effect i s
  cases h.symm.trans hu
  exact he

/-! ### Element by element -/

theorem writeCount_getElem (i j : Channel) (v : Word) (s : State) :
    (writeCount i v s).count[j] = if j = i then v else s.count[j] := by
  simp [Vector.getElem_set, Fin.ext_iff, eq_comm]

theorem clearTrig_getElem (i j : Channel) (s : State) :
    (clearTrig i s).trig[j] = if j = i then false else s.trig[j] := by
  simp [Vector.getElem_set, Fin.ext_iff, eq_comm]

theorem clearFlag_getElem (f k : Flag) (s : State) :
    (clearFlag f s).flag[k] = if k = f then false else s.flag[k] := by
  simp [Vector.getElem_set, Fin.ext_iff, eq_comm]

/-! ### The TICK step as a whole, piece by piece -/

/-- The state after a TICK step. -/
abbrev ticked (s : State) : State := tickDiv50 (tickDiv4 (tickChannels s))

theorem exec_tick (s : State) : exec .tick s = .next (ticked s) := rfl

theorem ticked_count (s : State) (i : Channel) : (ticked s).count[i] = tickCount (gate i s.ctx) s.count[i] := by
  simp

theorem ticked_trig (s : State) (i : Channel) :
    (ticked s).trig[i] = tickTrig (gate i s.ctx) s.count[i] s.trig[i] := by
  simp

theorem ticked_f40 (s : State) : (ticked s).flag[0] = tickF40 s.div4 s.flag[0] := by
  simp

theorem ticked_f500 (s : State) : (ticked s).flag[1] = tickF500 s.div50 s.flag[1] := by
  simp

theorem ticked_div4 (s : State) : (ticked s).div4 = nextDiv4 s.div4 := rfl

theorem ticked_div50 (s : State) : (ticked s).div50 = nextDiv50 s.div50 := rfl

theorem ticked_ctx (s : State) : (ticked s).ctx = s.ctx := rfl

theorem ticked_inputs (s : State) : (ticked s).inputs = s.inputs := rfl

theorem ticked_responses (s : State) : (ticked s).responses = s.responses := rfl

end Sys2Proof.Laws
end

