-- ==== Sys2Proof/Laws/PerInstr.lean ====
section
/-! SUPPORT. Statements made of every instruction, one lemma per constructor. -/

namespace Sys2Proof.Laws.EncodeCarriesFields

/-- The word of an instruction has its opcode, zeros in every must-be-zero bit of its format and its operands in
their fields (spec/30_encoding.md R45 to R48, R56); `TICK` has no word. -/
def Statement (i : Instr) : Prop :=
  ∀ w, encode i = .command w →
    ∃ op, opField w = opcodeByte op ∧ w &&& mbzMask (formatOf op) = 0 ∧ instrOf op (idField w) (immField w) = i

/-- A packed word has zeros in the must-be-zero field when its unused operands are zero. -/
theorem of_packWord {i : Instr} (op : Opcode) (id : IdField) (imm : Word) (he : encode i = .command (packWord op id imm))
    (hz : packWord op id imm &&& mbzMask (formatOf op) = 0) (hi : instrOf op id imm = i) : Statement i := by
  intro w h
  cases he.symm.trans h
  exact ⟨op, by simp, hz, by simpa using hi⟩

/-- Bits 47:32 of a packed word. -/
theorem packWord_z1 (op : Opcode) (id : IdField) (imm : Word) : (packWord op id imm).extractLsb' 32 16 = 0 := by
  apply BitVec.eq_of_getLsbD_eq
  intro k hk
  simp only [packWord, BitVec.getLsbD_extractLsb', BitVec.getLsbD_append, hk, decide_true, Bool.true_and]
  rw [if_neg (by omega), if_pos (by omega)]
  simp

/-- Bits 47:0 of a packed word without an immediate. -/
theorem packWord_low48 (op : Opcode) (id : IdField) : (packWord op id 0).extractLsb' 0 48 = 0 := by
  apply BitVec.eq_of_getLsbD_eq
  intro k hk
  simp only [packWord, BitVec.getLsbD_extractLsb', BitVec.getLsbD_append, hk, decide_true, Bool.true_and]
  split_ifs
  all_goals first
    | omega
    | simp

/-- Bits 55:32 of a packed word without an id. -/
theorem packWord_mid24 (op : Opcode) (imm : Word) : (packWord op 0 imm).extractLsb' 32 24 = 0 := by
  apply BitVec.eq_of_getLsbD_eq
  intro k hk
  simp only [packWord, BitVec.getLsbD_extractLsb', BitVec.getLsbD_append, hk, decide_true, Bool.true_and]
  split_ifs
  all_goals first
    | omega
    | simp

theorem nop : Statement .nop :=
  of_packWord .nop 0 0 rfl (by decide) rfl

theorem arm (ch : IdField) (v : Word) : Statement (.arm ch v) :=
  of_packWord .arm ch v rfl ((mbzMask_iff .ci _).2 (packWord_z1 _ _ _)) rfl

theorem rdcnt (ch : IdField) : Statement (.rdcnt ch) :=
  of_packWord .rdcnt ch 0 rfl ((mbzMask_iff .c _).2 (packWord_low48 _ _)) rfl

theorem rdtrig (ch : IdField) : Statement (.rdtrig ch) :=
  of_packWord .rdtrig ch 0 rfl ((mbzMask_iff .c _).2 (packWord_low48 _ _)) rfl

theorem take (ch : IdField) : Statement (.take ch) :=
  of_packWord .take ch 0 rfl ((mbzMask_iff .c _).2 (packWord_low48 _ _)) rfl

theorem rdflag (f : IdField) : Statement (.rdflag f) :=
  of_packWord .rdflag f 0 rfl ((mbzMask_iff .f _).2 (packWord_low48 _ _)) rfl

theorem takef (f : IdField) : Statement (.takef f) :=
  of_packWord .takef f 0 rfl ((mbzMask_iff .f _).2 (packWord_low48 _ _)) rfl

theorem setctx (v : Word) : Statement (.setctx v) :=
  of_packWord .setctx 0 v rfl ((mbzMask_iff .i _).2 (packWord_mid24 _ _)) rfl

theorem rdctx : Statement .rdctx :=
  of_packWord .rdctx 0 0 rfl (by decide) rfl

theorem tick : Statement .tick := by
  intro w h
  simp [encode] at h

end Sys2Proof.Laws.EncodeCarriesFields
end

