-- ==== Sys2Proof/Laws/Step.lean ====
section
/-! SUPPORT. What one step of the machine can do, and how runs are taken apart. -/

namespace Sys2Proof.Laws

open Sys2Proof.Machine

theorem step_of_nil {s : State} (h : s.inputs = []) : step s = .next s := by
  simp [step, advance, h]

theorem step_of_cons {s : State} {e : Event} {rest : List Event} (h : s.inputs = e :: rest) :
    step s = performEvent e { s with inputs := rest } := by
  simp [step, advance, h]

theorem performStep_instr {x : TraceStep} {i : Instr} (h : decode x = .instr i) (s : State) :
    performStep x s = exec i s := by
  simp [performStep, h]

theorem performStep_rejected {x : TraceStep} {st : Status} (h : decode x = .rejected st) (s : State) :
    performStep x s = .next (emit ⟨st, 0⟩ s) := by
  simp [performStep, h, reject_eq]

/-- Everything one step of a trace can do. -/
theorem performStep_cases (x : TraceStep) (s : State) :
    (∃ st, decode x = .rejected st ∧ performStep x s = .next (emit ⟨st, 0⟩ s)) ∨
    ∃ i t, decode x = .instr i ∧ performStep x s = .next t ∧ Effect s i t := by
  cases h : decode x with
  | rejected st => exact .inl ⟨st, rfl, performStep_rejected h s⟩
  | instr i =>
    obtain ⟨t, ht, he⟩ := exec_effect i s
    exact .inr ⟨i, t, rfl, (performStep_instr h s).trans ht, he⟩

/-- Everything one step of the machine can do. -/
theorem step_cases {s t : State} (h : step s = .next t) :
    (s.inputs = [] ∧ t = s) ∨
    (∃ rest, s.inputs = .reset :: rest ∧ t = resetBlock { s with inputs := rest }) ∨
    (∃ x rest st, s.inputs = .step x :: rest ∧ decode x = .rejected st ∧
      t = emit ⟨st, 0⟩ { s with inputs := rest }) ∨
    ∃ x rest i, s.inputs = .step x :: rest ∧ decode x = .instr i ∧ Effect { s with inputs := rest } i t := by
  cases hs : s.inputs with
  | nil =>
    rw [step_of_nil hs] at h
    cases h
    exact .inl ⟨rfl, rfl⟩
  | cons e rest =>
    rw [step_of_cons hs] at h
    cases e with
    | reset =>
      cases h
      exact .inr (.inl ⟨rest, rfl, rfl⟩)
    | step x =>
      obtain ⟨st, hd, hp⟩ | ⟨i, u, hd, hp, he⟩ := performStep_cases x { s with inputs := rest }
      · cases hp.symm.trans h
        exact .inr (.inr (.inl ⟨x, rest, st, rfl, hd, rfl⟩))
      · cases hp.symm.trans h
        exact .inr (.inr (.inr ⟨x, rest, i, rfl, hd, he⟩))

/-! ### One channel -/

/-- Everything one step can do to the pair of channel `i` (spec/10_state.md R13, R14). -/
inductive PairStep (i : Channel) (s t : State) : Prop where
  | idle (h : s.inputs = []) (hc : t.count[i] = s.count[i]) (ht : t.trig[i] = s.trig[i])
  | reset (rest : List Event) (h : s.inputs = .reset :: rest) (hc : t.count[i] = 0) (ht : t.trig[i] = false)
  | tick (rest : List Event) (h : s.inputs = .step .tick :: rest)
      (hc : t.count[i] = tickCount (gate i s.ctx) s.count[i])
      (ht : t.trig[i] = tickTrig (gate i s.ctx) s.count[i] s.trig[i])
  | arm (rest : List Event) (x : TraceStep) (ch : IdField) (v : Word) (h : s.inputs = .step x :: rest)
      (hd : decode x = .instr (.arm ch v)) (hch : channel? ch = some i) (hc : t.count[i] = v)
      (ht : t.trig[i] = s.trig[i])
  | take (rest : List Event) (x : TraceStep) (ch : IdField) (h : s.inputs = .step x :: rest)
      (hd : decode x = .instr (.take ch)) (hch : channel? ch = some i) (hc : t.count[i] = s.count[i])
      (ht : t.trig[i] = false)
  | other (rest : List Event) (x : TraceStep) (h : s.inputs = .step x :: rest) (hx : x ≠ .tick)
      (ha : armsChannel i (.step x) = false) (hk : takesTrigger i (.step x) = false)
      (hc : t.count[i] = s.count[i]) (ht : t.trig[i] = s.trig[i])

/-- A step that decodes to no `ARM`, no `TAKE` and no `TICK` is none of them. -/
theorem no_write_of_readsOnly {x : TraceStep} {i : Instr} (hd : decode x = .instr i) (h : readsOnly i = true)
    (k : Channel) : x ≠ .tick ∧ armsChannel k (.step x) = false ∧ takesTrigger k (.step x) = false := by
  refine ⟨?_, ?_, ?_⟩
  · rintro rfl
    cases hd
    cases h
  · cases i <;> first | cases h; done | simp [armsChannel, hd]
  · cases i <;> first | cases h; done | simp [takesTrigger, hd]

theorem pairStep_of_step {s t : State} (i : Channel) (h : step s = .next t) : PairStep i s t := by
  obtain ⟨hn, rfl⟩ | ⟨rest, hr, rfl⟩ | ⟨x, rest, st, hx, hd, rfl⟩ | ⟨x, rest, ins, hx, hd, he⟩ := step_cases h
  · exact .idle hn rfl rfl
  · exact .reset rest hr (by simp [State.reset]) (by simp [State.reset])
  · exact .other rest x hx (by rintro rfl; simp [decode] at hd) (by simp [armsChannel, hd])
      (by simp [takesTrigger, hd]) rfl rfl
  · cases he with
    | silent _ r hr =>
      obtain hr | hw := hr
      · obtain ⟨h1, h2, h3⟩ := no_write_of_readsOnly hd hr i
        exact .other rest x hx h1 h2 h3 rfl rfl
      · rw [wf_of_decode hd] at hw
        cases hw
    | armed ch k v hc =>
      have e := writeCount_getElem k i v { s with inputs := rest }
      by_cases hik : i = k
      · subst hik
        exact .arm rest x ch v hx hd hc (e.trans (if_pos rfl)) rfl
      · exact .other rest x hx (by rintro rfl; simp [decode] at hd) (by simp [armsChannel, hd, hc, Ne.symm hik])
          (by simp [takesTrigger, hd]) (e.trans (if_neg hik)) rfl
    | taken ch k hc =>
      have e := clearTrig_getElem k i { s with inputs := rest }
      by_cases hik : i = k
      · subst hik
        exact .take rest x ch hx hd hc rfl (e.trans (if_pos rfl))
      · exact .other rest x hx (by rintro rfl; simp [decode] at hd) (by simp [armsChannel, hd])
          (by simp [takesTrigger, hd, hc, Ne.symm hik]) rfl (e.trans (if_neg hik))
    | flagTaken =>
      exact .other rest x hx (by rintro rfl; simp [decode] at hd) (by simp [armsChannel, hd])
        (by simp [takesTrigger, hd]) rfl rfl
    | ctxSet =>
      exact .other rest x hx (by rintro rfl; simp [decode] at hd) (by simp [armsChannel, hd])
        (by simp [takesTrigger, hd]) rfl rfl
    | ticked =>
      cases eq_tick_of_decode hd
      exact .tick rest hx (ticked_count { s with inputs := rest } i) (ticked_trig { s with inputs := rest } i)

/-- A step takes the first event, if there is one. -/
theorem inputs_of_step {s t : State} (h : step s = .next t) : t.inputs = s.inputs.tail := by
  obtain ⟨hn, rfl⟩ | ⟨rest, hr, rfl⟩ | ⟨x, rest, st, hx, hd, rfl⟩ | ⟨x, rest, ins, hx, hd, he⟩ := step_cases h
  · simp [hn]
  · simp [hr]
  · simp [hx]
  · cases he <;> simp [hx]

/-! ### Runs -/

theorem runsTo_zero {s t : State} : RunsTo 0 s t ↔ t = s := by
  constructor
  · intro h
    cases h
    rfl
  · rintro rfl
    rfl

theorem runsTo_succ {n : Nat} {s t : State} :
    RunsTo (n + 1) s t ↔ ∃ u, step s = .next u ∧ RunsTo n u t := by
  cases hs : step s with
  | next u =>
    have hc : core.step s = .next u := hs
    simp [RunsTo, Host.Core.run, hc]
  | fault r => cases r
  | refused r =>
    have hc : core.step s = .refused r := hs
    simp [RunsTo, Host.Core.run, hc]

theorem runsTo_add {m n : Nat} {s t : State} :
    RunsTo (m + n) s t ↔ ∃ u, RunsTo m s u ∧ RunsTo n u t := by
  induction m generalizing s with
  | zero => simp [runsTo_zero]
  | succ m ih =>
    rw [Nat.add_right_comm, runsTo_succ]
    constructor
    · rintro ⟨v, hv, hr⟩
      obtain ⟨u, hu, ht⟩ := ih.1 hr
      exact ⟨u, runsTo_succ.2 ⟨v, hv, hu⟩, ht⟩
    · rintro ⟨u, hu, ht⟩
      obtain ⟨v, hv, hr⟩ := runsTo_succ.1 hu
      exact ⟨v, hv, ih.2 ⟨u, hr, ht⟩⟩

theorem stepsFrom_succ_of_step {p : State → Bool} {n : Nat} {s t : State} (h : step s = .next t) :
    stepsFrom p (n + 1) s = (if p s then 1 else 0) + stepsFrom p n t := by
  simp [stepsFrom, h]

end Sys2Proof.Laws
end

