-- ==== Sys2Proof/Tests/Slice0.lean ====
section
/-! SUPPORT. Tests of one step each, with expected results from spec/95_test_vectors.md; and for every
statement with hypotheses a concrete input that meets them all, at the boundary values of each clause. -/

namespace Sys2Proof.Tests

open Sys2Proof Sys2Proof.Machine

/-! ### Helpers -/

/-- The state after a step, if there is one. -/
def after (r : Result) : Option State :=
  match r with
  | .next t => some t
  | .fault _ => none
  | .refused _ => none

/-- The reset state with events to come. -/
def ready (events : List Event) : State := { State.reset with inputs := events }

/-- A state that differs from reset in every piece: used counts, pending triggers, flags set, phases under way,
context 0x11 (Receiving, `DW_EN`). -/
def busy (events : List Event) : State :=
  { count := ((State.reset.count.set 6 44).set 19 4294967295).set 1 1
    trig := (State.reset.trig.set 6 true).set 7 true
    flag := State.reset.flag.set 0 true |>.set 1 true
    div4 := 2
    div50 := 7
    ctx := 0x11
    inputs := events
    responses := [⟨.ok, 9⟩] }

/-- The reset state with one word to come. -/
def send (w : CmdWord) : State := ready [.step (.command w)]

/-- Channel `i` of the reset state with the given count, trigger and context. -/
def channelState (i : Channel) (ctx v : Word) (t : Bool) : State :=
  { State.reset with ctx := ctx, count := State.reset.count.set i v, trig := State.reset.trig.set i t }

/-- The reset state with the given phases and flags. -/
def dividerState (d4 : BitVec 2) (d50 : BitVec 6) (f40 f500 : Bool) : State :=
  { State.reset with div4 := d4, div50 := d50, flag := #v[f40, f500] }

/-- The response of one command word from `busy`, and what it read or wrote. -/
def answerOf (w : CmdWord) : Option Response :=
  (after (step (busy [.step (.command w)]))).bind fun t => t.responses.getLast?

/-! ### WellFormed: one ill-formed term for each check (spec/30_encoding.md R58) -/

theorem test_wf_channel : ∀ v, (Instr.arm 20 v).wf = false ∧ (Instr.arm 19 v).wf = true := fun _ => ⟨rfl, rfl⟩
theorem test_wf_channel_of_each : (Instr.rdcnt 20).wf = false ∧ (Instr.rdtrig 20).wf = false ∧
    (Instr.take 20).wf = false ∧ (Instr.take 255).wf = false ∧ (Instr.take 19).wf = true := by decide
theorem test_wf_flag : (Instr.rdflag 2).wf = false ∧ (Instr.takef 2).wf = false ∧ (Instr.takef 1).wf = true := by
  decide
theorem test_wf_context_mode : (Instr.setctx 6).wf = false ∧ (Instr.setctx 7).wf = false ∧
    (Instr.setctx 5).wf = true := by decide
theorem test_wf_context_reserved : (Instr.setctx 8).wf = false ∧ (Instr.setctx 0x100).wf = false ∧
    (Instr.setctx 0x80000000).wf = false ∧ (Instr.setctx 0xF5).wf = true := by decide

/-! ### Decoding: words of spec/95_test_vectors.md sections 2.1 and 2.2, every constructor -/

theorem test_decode_nop : decode (.command 0x0000000000000000) = .instr .nop := by decide
theorem test_decode_arm : decode (.command 0x010600000000003C) = .instr (.arm 6 60) ∧
    decode (.command 0x01130000FFFFFFFF) = .instr (.arm 19 4294967295) ∧
    decode (.command 0x010A000000000000) = .instr (cancel 10) := by decide
theorem test_decode_rdcnt : decode (.command 0x0201000000000000) = .instr (.rdcnt 1) := by decide
theorem test_decode_rdtrig : decode (.command 0x030D000000000000) = .instr (.rdtrig 13) := by decide
theorem test_decode_take : decode (.command 0x0406000000000000) = .instr (.take 6) := by decide
theorem test_decode_rdflag : decode (.command 0x0500000000000000) = .instr (.rdflag 0) ∧
    decode (.command 0x0501000000000000) = .instr (.rdflag 1) := by decide
theorem test_decode_takef : decode (.command 0x0600000000000000) = .instr (.takef 0) ∧
    decode (.command 0x0601000000000000) = .instr (.takef 1) := by decide
theorem test_decode_setctx : decode (.command 0x0700000000000000) = .instr (.setctx 0) ∧
    decode (.command 0x07000000000000F5) = .instr (setctxFields .powerSaving true true true true) := by decide
theorem test_decode_rdctx : decode (.command 0x0800000000000000) = .instr .rdctx := by decide
theorem test_decode_tick : decode .tick = .instr .tick := by decide

theorem test_reject_opcode : decode (.command 0x0900000000000000) = .rejected .badOpcode ∧
    decode (.command 0xFFFFFFFFFFFFFFFF) = .rejected .badOpcode := by decide
theorem test_reject_mbz : decode (.command 0x0000000000000001) = .rejected .badOperand ∧
    decode (.command 0x0001000000000000) = .rejected .badOperand ∧
    decode (.command 0x0102000100000005) = .rejected .badOperand ∧
    decode (.command 0x01FF000100000005) = .rejected .badOperand ∧
    decode (.command 0x0200000000000001) = .rejected .badOperand ∧
    decode (.command 0x0701000000000000) = .rejected .badOperand ∧
    decode (.command 0x0800000000000001) = .rejected .badOperand := by decide
theorem test_reject_id : decode (.command 0x0114000000000005) = .rejected .badId ∧
    decode (.command 0x0414000000000000) = .rejected .badId ∧
    decode (.command 0x0502000000000000) = .rejected .badId ∧
    decode (.command 0x0602000000000000) = .rejected .badId := by decide
theorem test_reject_context : decode (.command 0x0700000000000006) = .rejected .badOperand ∧
    decode (.command 0x0700000000000007) = .rejected .badOperand ∧
    decode (.command 0x0700000000000008) = .rejected .badOperand ∧
    decode (.command 0x0700000000000100) = .rejected .badOperand := by decide

/-- The status codes on `rsp_st_o` (spec/30_encoding.md R52). -/
theorem test_status_codes : responsePorts ⟨.ok, 5⟩ = (0, 5) ∧ statusCode .badOpcode = 1 ∧ statusCode .badId = 2 ∧
    statusCode .badOperand = 3 := by decide

/-- The listing spells identifiers by their mnemonics (spec/95_test_vectors.md section 2.1). -/
theorem test_spell : spell (.arm 6 60) = "ARM TXTIMEOUT, 60" ∧ spell (.takef 1) = "TAKEF F500" := by decide

/-- The host's entry: the tick port's one-bit row, and a command row (opcode_table.json). -/
theorem test_table_word : decodeTableWord 8 1 = some .tick ∧ decodeTableWord 64 0x0406000000000000 = some (.take 6) ∧
    decodeTableWord 64 1 = none := by decide

/-- A word presented runs as the first instruction after reset. -/
theorem test_fetch_word : (after (step (State.reset.withFetchWord 64 0x010600000000003C))).map (·.count[6]) = some 60 ∧
    (after (step (State.reset.withFetchWord 8 1))).map (·.div50) = some 1 := by decide

/-! ### One step of each instruction (spec/95_test_vectors.md sections 2.3 to 2.7) -/

theorem test_nop : answerOf 0x0000000000000000 = some ⟨.ok, 0⟩ := by decide
theorem test_arm : (after (exec (.arm 6 9) (busy []))).map (fun t => (t.count[6], t.trig[6], t.count[19])) =
    some (9, true, 4294967295) := by decide
theorem test_arm_cancel : (after (exec (cancel 6) (busy []))).map (fun t => (t.count[6], t.trig[6])) =
    some (0, true) := by decide
theorem test_rdcnt : answerOf 0x0213000000000000 = some ⟨.ok, 0xFFFFFFFF⟩ ∧
    answerOf 0x0206000000000000 = some ⟨.ok, 44⟩ := by decide
theorem test_rdtrig : answerOf 0x0306000000000000 = some ⟨.ok, 1⟩ ∧
    (after (exec (.rdtrig 6) (busy []))).map (·.trig[6]) = some true := by decide
theorem test_take : answerOf 0x0406000000000000 = some ⟨.ok, 1⟩ ∧
    (after (exec (.take 6) (busy []))).map (fun t => (t.trig[6], t.trig[7], t.count[6])) = some (false, true, 44) := by
  decide
theorem test_take_clear : answerOf 0x0405000000000000 = some ⟨.ok, 0⟩ := by decide
theorem test_rdflag : answerOf 0x0500000000000000 = some ⟨.ok, 1⟩ ∧
    (after (exec (.rdflag 0) (busy []))).map (·.flag[0]) = some true := by decide
theorem test_takef : answerOf 0x0600000000000000 = some ⟨.ok, 1⟩ ∧
    (after (exec (.takef 0) (busy []))).map (fun t => (t.flag[0], t.flag[1], t.div4)) = some (false, true, 2) := by
  decide
theorem test_takef_500 : (after (exec (.takef 1) (busy []))).map (fun t => (t.flag[0], t.flag[1], t.div50)) =
    some (true, false, 7) := by decide
theorem test_setctx : (after (exec (.setctx 0xF5) (busy []))).map (fun t => (t.ctx, t.count[1])) = some (0xF5, 1) := by
  decide
theorem test_setctx_illegal : answerOf 0x0700000000000006 = some ⟨.badOperand, 0⟩ ∧
    (after (exec (.setctx 6) (busy []))).map (·.ctx) = some 0x11 := by decide
theorem test_rdctx : answerOf 0x0800000000000000 = some ⟨.ok, 0x11⟩ := by decide
theorem test_setmode : setmodeSecond .transmitting 0x15 = .setctx 0x13 := by decide

/-- The channel of a row after one TICK from `channelState`. -/
def tickRow (i : Channel) (ctx v : Word) (t : Bool) : Option (Word × Bool) :=
  (after (exec .tick (channelState i ctx v t))).map fun s => (s.count[i], s.trig[i])

/-- Rows of spec/95_test_vectors.md section 2.3. -/
theorem test_tick_channels :
    tickRow 6 0 0 false = some (0, false) ∧ tickRow 6 0 0 true = some (0, true) ∧
    tickRow 6 0 1 false = some (0, true) ∧ tickRow 6 0 2 true = some (1, true) ∧
    tickRow 6 0 4294967295 false = some (4294967294, false) ∧
    tickRow 1 0x11 1 false = some (1, false) ∧ tickRow 1 0x12 1 false = some (0, true) ∧
    tickRow 1 0x20 5 false = some (5, false) ∧ tickRow 1 0x15 5 false = some (4, false) ∧
    tickRow 10 0x20 5 false = some (4, false) ∧ tickRow 10 0x24 1 false = some (1, false) ∧
    tickRow 2 0x41 3 false = some (2, false) ∧ tickRow 2 0x80 3 false = some (2, false) ∧
    tickRow 2 0x43 3 false = some (3, false) ∧ tickRow 2 0x30 3 false = some (3, false) ∧
    tickRow 0 0xF4 3 false = some (2, false) ∧ tickRow 19 0x03 1 false = some (0, true) := by decide

/-- Whether one TICK brings the phases and flags (`F40`, `F500`) before to those after. -/
def dividerRow (d4 : BitVec 2) (d50 : BitVec 6) (f40 f500 : Bool) (d4' : BitVec 2) (d50' : BitVec 6)
    (f40' f500' : Bool) : Bool :=
  match after (exec .tick (dividerState d4 d50 f40 f500)) with
  | some t => t.div4 == d4' && t.div50 == d50' && t.flag[0] == f40' && t.flag[1] == f500'
  | none => false

/-- Rows of spec/95_test_vectors.md section 2.4. -/
theorem test_tick_dividers :
    dividerRow 0 0 false false 1 1 false false = true ∧ dividerRow 2 10 false false 3 11 false false = true ∧
    dividerRow 3 10 false false 0 11 true false = true ∧ dividerRow 0 49 false false 1 0 false true = true ∧
    dividerRow 3 49 false false 0 0 true true = true ∧ dividerRow 3 48 false true 0 49 true true = true := by
  decide

/-! ### Witnesses: an input that meets all the hypotheses of each statement, clause by clause -/

theorem witness_ResetSetsEveryPieceOfState : (busy [.reset]).inputs = .reset :: [] := rfl

/-- A legal context value, an illegal one, a TICK at the last phase, a reset. -/
theorem witness_StepKeepsInvariant :
    (∃ t, (busy [Claims.ev (.setctx 0xF5)]).Inv ∧ step (busy [Claims.ev (.setctx 0xF5)]) = .next t) ∧
    (∃ t, (busy [Claims.ev (.setctx 6)]).Inv ∧ step (busy [Claims.ev (.setctx 6)]) = .next t) ∧
    (∃ t, ({ busy [.step .tick] with div50 := 49 } : State).Inv ∧
      step { busy [.step .tick] with div50 := 49 } = .next t) ∧
    (∃ t, (busy [.reset]).Inv ∧ step (busy [.reset]) = .next t) :=
  ⟨⟨_, by decide, rfl⟩, ⟨_, by decide, rfl⟩, ⟨_, by decide, rfl⟩, ⟨_, by decide, rfl⟩⟩

theorem witness_RunNeverStopsAndIsAFunctionOfStateAndTrace :
    SameBlock (busy [.step .tick, .reset]) { busy [.step .tick, .reset] with responses := [] } ∧
    (busy [.step .tick, .reset]).inputs = ({ busy [.step .tick, .reset] with responses := [] } : State).inputs := by
  decide

theorem witness_StepRunsTheDecodedInstruction :
    ((send 0x0406000000000000).inputs = .step (.command 0x0406000000000000) :: [] ∧
      decode (.command 0x0406000000000000) = .instr (.take 6)) ∧
    ((send 0x0114000000000005).inputs = .step (.command 0x0114000000000005) :: [] ∧
      decode (.command 0x0114000000000005) = .rejected .badId) ∧
    (busy [.reset]).inputs = .reset :: [] ∧ (busy []).inputs = [] := by decide

/-- One word at the edge of each branch of the decoder, and the premises of the two other clauses. -/
theorem witness_DecoderOutcomesInFixedOrder :
    8 < (Claims.op 0x0900000000000000).toNat ∧
    Claims.mbzViolated 0x01FF000100000005 ∧
    ((1 ≤ (Claims.op 0x0114000000000005).toNat ∧ (Claims.op 0x0114000000000005).toNat ≤ 4) ∧
      20 ≤ (Claims.id 0x0114000000000005).toNat ∧ ¬ Claims.mbzViolated 0x0114000000000005) ∧
    (Claims.op 0x0602000000000000 = 6 ∧ 2 ≤ (Claims.id 0x0602000000000000).toNat) ∧
    (Claims.op 0x0700000000000006 = 7 ∧ Claims.ctxIllegal (Claims.imm 0x0700000000000006)) ∧
    (Claims.op 0x0413000000000000 = 4 ∧ (Claims.id 0x0413000000000000).toNat = 19 ∧
      ¬ Claims.mbzViolated 0x0413000000000000) ∧
    (Claims.op 0x0601000000000000 = 6 ∧ (Claims.id 0x0601000000000000).toNat = 1) ∧
    (Claims.op 0x07000000000000F5 = 7 ∧ ¬ Claims.ctxIllegal (Claims.imm 0x07000000000000F5)) ∧
    Claims.op 0x0800000000000000 = 8 ∧
    decode (.command 0x0413000000000000) = .instr (.take 19) ∧
    (Instr.wf (.take 19) = true ∧ Instr.take 19 ≠ .tick) := by decide

theorem witness_EncodedWordsAsNumbers :
    encode .nop = .command 0x0000000000000000 ∧ encode (.arm 19 4294967295) = .command 0x01130000FFFFFFFF ∧
    encode (.rdcnt 1) = .command 0x0201000000000000 ∧ encode (.rdtrig 13) = .command 0x030D000000000000 ∧
    encode (.take 6) = .command 0x0406000000000000 ∧ encode (.rdflag 1) = .command 0x0501000000000000 ∧
    encode (.takef 1) = .command 0x0601000000000000 ∧ encode (.setctx 0xF5) = .command 0x07000000000000F5 ∧
    encode .rdctx = .command 0x0800000000000000 := by decide

theorem witness_ReservedOpcodeIsRejected :
    (Claims.arrives (send 0x0900000000000000) 0x0900000000000000 [] ∧ 9 ≤ (Claims.op 0x0900000000000000).toNat) ∧
    (Claims.arrives (send 0xFFFFFFFFFFFFFFFF) 0xFFFFFFFFFFFFFFFF [] ∧ 9 ≤ (Claims.op 0xFFFFFFFFFFFFFFFF).toNat) := by
  decide

/-- The word has a legal opcode and a must-be-zero bit that is 1. -/
abbrev mbzWitness (w : CmdWord) : Prop :=
  Claims.arrives (send w) w [] ∧ (Claims.op w).toNat ≤ 8 ∧ Claims.mbzViolated w

/-- The first and the last must-be-zero bit of each format. -/
theorem witness_MustBeZeroBitRejectsCommand :
    (mbzWitness 0x0000000000000001 ∧ mbzWitness 0x0080000000000000) ∧
    (mbzWitness 0x0800000000000001 ∧ mbzWitness 0x0880000000000000) ∧
    (mbzWitness 0x0200000000000001 ∧ mbzWitness 0x0400800000000000) ∧
    (mbzWitness 0x0500000000000001 ∧ mbzWitness 0x0600800000000000) ∧
    (mbzWitness 0x0100000100000000 ∧ mbzWitness 0x0100800000000000) ∧
    (mbzWitness 0x0700000100000000 ∧ mbzWitness 0x0780000000000000) :=
  ⟨by decide, by decide, by decide, by decide, by decide, by decide⟩

theorem witness_IdOutOfRangeIsRejected :
    20 ≤ (20 : IdField).toNat ∧ 2 ≤ (2 : IdField).toNat ∧
    (∃ t, (6 : Channel) ≠ 7 ∧ exec (.arm (Claims.chId 6) 5) (busy []) = .next t) ∧
    (∃ t, (0 : Channel) ≠ 19 ∧ exec (.take (Claims.chId 0)) (busy []) = .next t) ∧
    (∃ t, (0 : Flag) ≠ 1 ∧ exec (.takef (Claims.flagId 0)) (busy []) = .next t) :=
  ⟨by decide, by decide, ⟨_, by decide, rfl⟩, ⟨_, by decide, rfl⟩, ⟨_, by decide, rfl⟩⟩

theorem witness_RejectedCommandChangesNothing :
    (decode (.command 0x0900000000000000) = .rejected .badOpcode ∧
      Claims.arrives (busy [.step (.command 0x0900000000000000)]) 0x0900000000000000 []) ∧
    (decode (.command 0x0114000000000005) = .rejected .badId ∧
      Claims.arrives (busy [.step (.command 0x0114000000000005)]) 0x0114000000000005 []) ∧
    (decode (.command 0x0700000000000006) = .rejected .badOperand ∧
      Claims.arrives (busy [.step (.command 0x0700000000000006)]) 0x0700000000000006 []) := by decide

/-- The word is accepted, with the given data. -/
abbrev okWitness (w : CmdWord) (d : Word) : Prop :=
  Claims.arrives (busy [.step (.command w)]) w [] ∧ answerOf w = some ⟨.ok, d⟩

/-- A word of each opcode, accepted. -/
theorem witness_EveryCommandIsAnsweredOnce :
    okWitness 0x0000000000000000 0 ∧ okWitness 0x0113000000000005 0 ∧ okWitness 0x0213000000000000 0xFFFFFFFF ∧
    okWitness 0x0306000000000000 1 ∧ okWitness 0x0413000000000000 0 ∧ okWitness 0x0501000000000000 1 ∧
    okWitness 0x0601000000000000 1 ∧ okWitness 0x07000000000000F5 0 ∧ okWitness 0x0800000000000000 0x11 :=
  ⟨by decide, by decide, by decide, by decide, by decide, by decide, by decide, by decide, by decide⟩

theorem witness_EveryCommandIsAnsweredOnce_rejected :
    Claims.arrives (send 0x0114000000000005) 0x0114000000000005 [] ∧
    (answerOf 0x0114000000000005).map (·.st) = some .badId := by decide

theorem witness_ResponsesComeInOrderOnePerCommand :
    ∃ t, RunsTo 3 (busy [Claims.ev .rdctx, .step .tick, .step (.command 0x0900000000000000)]) t := ⟨_, rfl⟩

theorem witness_AcceptanceDependsOnTheWordAlone :
    Claims.arrives (busy [Claims.ev .rdctx]) 0x0800000000000000 [] ∧
    Claims.arrives (send 0x0900000000000000) 0x0900000000000000 [] := by decide

theorem witness_NopWord :
    (Claims.arrives (send 0x0000000000000001) 0x0000000000000001 [] ∧ Claims.op 0x0000000000000001 = 0x00 ∧
      (0x0000000000000001 : CmdWord).extractLsb' 0 56 ≠ 0) ∧
    (Claims.arrives (send 0x0000000000000000) 0x0000000000000000 [] ∧ Claims.op 0x0000000000000000 = 0x00 ∧
      (0x0000000000000000 : CmdWord).extractLsb' 0 56 = 0) := by decide

theorem witness_ArmWord :
    (Claims.arrives (send 0x0102000100000005) 0x0102000100000005 [] ∧ Claims.op 0x0102000100000005 = 0x01 ∧
      (0x0102000100000005 : CmdWord).extractLsb' 32 16 ≠ 0) ∧
    (Claims.arrives (send 0x0114000000000005) 0x0114000000000005 [] ∧ Claims.op 0x0114000000000005 = 0x01 ∧
      (0x0114000000000005 : CmdWord).extractLsb' 32 16 = 0 ∧ 20 ≤ (Claims.id 0x0114000000000005).toNat) ∧
    (Claims.arrives (send 0x0113000000000005) 0x0113000000000005 [] ∧ Claims.op 0x0113000000000005 = 0x01 ∧
      (0x0113000000000005 : CmdWord).extractLsb' 32 16 = 0 ∧
      (Claims.id 0x0113000000000005).toNat = (19 : Channel).val) := by decide

/-- The words of one opcode of format C or F: a must-be-zero bit, the first id out of range, the last in range. -/
abbrev wordWitness (op : BitVec 8) (mbz out last : CmdWord) (n : Nat) : Prop :=
  (Claims.arrives (send mbz) mbz [] ∧ Claims.op mbz = op ∧ mbz.extractLsb' 0 48 ≠ 0) ∧
  (Claims.arrives (send out) out [] ∧ Claims.op out = op ∧ out.extractLsb' 0 48 = 0 ∧
    n ≤ (Claims.id out).toNat) ∧
  (Claims.arrives (send last) last [] ∧ Claims.op last = op ∧ last.extractLsb' 0 48 = 0 ∧
    (Claims.id last).toNat + 1 = n)

theorem witness_RdcntWord :
    wordWitness 0x02 0x0200000000000001 0x0214000000000000 0x0213000000000000 20 := by decide
theorem witness_RdtrigWord :
    wordWitness 0x03 0x0300000000000001 0x0314000000000000 0x0313000000000000 20 := by decide
theorem witness_TakeWord :
    wordWitness 0x04 0x0400800000000000 0x0414000000000000 0x0413000000000000 20 := by decide
theorem witness_RdflagWord :
    wordWitness 0x05 0x0500000000000001 0x0502000000000000 0x0501000000000000 2 := by decide
theorem witness_TakefWord :
    wordWitness 0x06 0x0600800000000000 0x0602000000000000 0x0601000000000000 2 := by decide

/-- A `SETCTX` word without a must-be-zero violation. -/
abbrev setctxWitness (w : CmdWord) : Prop :=
  Claims.arrives (send w) w [] ∧ Claims.op w = 0x07 ∧ w.extractLsb' 32 24 = 0

theorem witness_SetctxWord :
    (Claims.arrives (send 0x0701000000000000) 0x0701000000000000 [] ∧ Claims.op 0x0701000000000000 = 0x07 ∧
      (0x0701000000000000 : CmdWord).extractLsb' 32 24 ≠ 0) ∧
    (setctxWitness 0x0700000000000006 ∧ Claims.ctxIllegal (Claims.imm 0x0700000000000006)) ∧
    (setctxWitness 0x0700000000000008 ∧ Claims.ctxIllegal (Claims.imm 0x0700000000000008)) ∧
    (setctxWitness 0x0700000000000100 ∧ Claims.ctxIllegal (Claims.imm 0x0700000000000100)) ∧
    (setctxWitness 0x0700000000000005 ∧ ¬ Claims.ctxIllegal (Claims.imm 0x0700000000000005)) ∧
    (setctxWitness 0x07000000000000F5 ∧ ¬ Claims.ctxIllegal (Claims.imm 0x07000000000000F5)) :=
  ⟨by decide, by decide, by decide, by decide, by decide, by decide⟩

theorem witness_RdctxWord :
    (Claims.arrives (send 0x0800000000000001) 0x0800000000000001 [] ∧ Claims.op 0x0800000000000001 = 0x08 ∧
      (0x0800000000000001 : CmdWord).extractLsb' 0 56 ≠ 0) ∧
    (Claims.arrives (send 0x0800000000000000) 0x0800000000000000 [] ∧ Claims.op 0x0800000000000000 = 0x08 ∧
      (0x0800000000000000 : CmdWord).extractLsb' 0 56 = 0 ∧ (send 0x0800000000000000).Inv) := by decide

theorem witness_WritingInstructionsComplete : ¬ Claims.ctxIllegal 0xF5 ∧ ¬ Claims.ctxIllegal 5 ∧ Claims.ctxIllegal 6 ∧
    Claims.ctxIllegal 8 ∧ Claims.ctxIllegal 0x100 := by decide

theorem witness_TickCompletesWithoutResponse :
    (busy [.step .tick, .reset]).inputs = .step .tick :: [.reset] ∧
    busy [.reset] = { busy [.step .tick, .reset] with inputs := [.reset] } ∧
    (dividerState 0 49 false false).div50.toNat ≤ 49 := by decide

/-- Channel 6 open at 0 and at the two ends of the range, channel 1 held (context 0x11). -/
theorem witness_DecrementIsExact :
    (∃ t, exec .tick (channelState 6 0x11 0 false) = .next t ∧ gate 6 0x11 = true ∧
      (channelState 6 0x11 0 false).count[6].toNat = 0) ∧
    (∃ t, exec .tick (channelState 6 0x11 1 false) = .next t ∧ gate 6 0x11 = true ∧
      1 ≤ (channelState 6 0x11 1 false).count[6].toNat) ∧
    (∃ t, exec .tick (channelState 6 0x11 4294967295 false) = .next t ∧ gate 6 0x11 = true ∧
      1 ≤ (channelState 6 0x11 4294967295 false).count[6].toNat) ∧
    (∃ t, exec .tick (channelState 1 0x11 1 false) = .next t ∧ gate 1 0x11 = false) ∧
    (∃ t, Instr.arm 6 9 ≠ .tick ∧ exec (.arm 6 9) (busy []) = .next t) :=
  ⟨⟨_, rfl, by decide⟩, ⟨_, rfl, by decide⟩, ⟨_, rfl, by decide⟩, ⟨_, rfl, by decide⟩, ⟨_, by decide, rfl⟩⟩

theorem witness_TriggerSetExactlyOnExpiry :
    (∃ t, exec .tick (channelState 6 0 1 false) = .next t ∧ (channelState 6 0 1 false).count[6] = 1 ∧
      t.count[6] = 0) ∧
    (∃ t, exec .tick (channelState 6 0 2 true) = .next t ∧
      ¬ ((channelState 6 0 2 true).count[6] = 1 ∧ t.count[6] = 0) ∧ (channelState 6 0 2 true).trig[6] = true) ∧
    (∃ t, exec .tick (channelState 6 0 0 false) = .next t ∧
      ¬ ((channelState 6 0 0 false).count[6] = 1 ∧ t.count[6] = 0)) :=
  ⟨⟨_, rfl, by decide⟩, ⟨_, rfl, by decide⟩, ⟨_, rfl, by decide⟩⟩

/-- Two states with equal counts, context and dividers and different pending bits; channel 6 expires in both. -/
theorem witness_TickNeverClearsReloadsOrReadsPendingBits : ∃ t t',
    exec .tick (channelState 6 0 1 false) = .next t ∧
    exec .tick { channelState 6 0 1 true with flag := #v[true, true] } = .next t' ∧
    (channelState 6 0 1 false).count = (channelState 6 0 1 true).count ∧
    (channelState 6 0 1 false).trig[6] = false ∧ t.trig[6] = true :=
  ⟨_, _, rfl, rfl, by decide⟩

/-- The mode 5 is legal and 6 is not; channels 0 and 19 are ungated. -/
theorem witness_GatesReadTheContextAsStated_modes :
    (0x15 : Word).toNat % 8 = 5 ∧ ¬ (0x16 : Word).toNat % 8 ≤ 5 ∧
    ((0 : Channel) ≠ 1 ∧ (0 : Channel) ≠ 2 ∧ (0 : Channel) ≠ 10) ∧
    ((19 : Channel) ≠ 1 ∧ (19 : Channel) ≠ 2 ∧ (19 : Channel) ≠ 10) := by decide
theorem witness_GatesReadTheContextAsStated :
    (∃ t, exec .tick (channelState 1 0x11 5 false) = .next t ∧ gate 1 0x11 = false) ∧
    (∃ t, exec .tick (channelState 1 0x12 5 false) = .next t ∧ gate 1 0x12 = true ∧
      (channelState 1 0x12 5 false).count[1] ≠ 0) ∧
    (∃ t t', exec .tick (busy []) = .next t ∧ exec .tick { busy [] with ctx := 0xF4 } = .next t') :=
  ⟨⟨_, rfl, by decide⟩, ⟨_, rfl, by decide⟩, ⟨_, _, rfl, rfl⟩⟩

theorem witness_ClosedGateHoldsTheChannel : ∃ t,
    (busy [.step .tick, .step .tick]).inputs = List.replicate 2 (.step .tick) ++ [] ∧
    gate 1 (busy [.step .tick, .step .tick]).ctx = false ∧ RunsTo 2 (busy [.step .tick, .step .tick]) t :=
  ⟨_, rfl, rfl, rfl⟩

theorem witness_SetctxGatesTheNextTick :
    (¬ Claims.ctxIllegal 0x10 ∧ (busy [Claims.ev (.setctx 0x10), .step .tick]).inputs =
      Claims.ev (.setctx 0x10) :: .step .tick :: [] ∧ gate 1 0x10 = true ∧
      (busy [Claims.ev (.setctx 0x10), .step .tick]).count[1] ≠ 0) ∧
    (¬ Claims.ctxIllegal 0x13 ∧ gate 1 0x13 = false) := by decide

/-- Every instruction answers a next state. -/
theorem witness_InstructionsWriteOnlyWhatTheyMay :
    ∀ i ∈ ([.nop, .arm 6 9, .rdcnt 6, .rdtrig 6, .take 6, .rdflag 0, .takef 0, .setctx 0xF5, .rdctx, .tick,
      .arm 20 9] : List Instr), (after (exec i (busy []))).isSome = true := by decide

theorem witness_CountWrittenOnlyByTickAndArm :
    (∃ t, step (busy [.step .tick]) = .next t ∧ t.count[6] ≠ (busy [.step .tick]).count[6]) ∧
    (∃ t, step (busy [Claims.ev (.arm 6 60)]) = .next t ∧ t.count[6] ≠ (busy [Claims.ev (.arm 6 60)]).count[6]) ∧
    (∃ t, step (busy [.reset]) = .next t ∧ t.count[6] ≠ (busy [.reset]).count[6]) :=
  ⟨⟨_, rfl, by decide⟩, ⟨_, rfl, by decide⟩, ⟨_, rfl, by decide⟩⟩

theorem witness_TriggerSetOnlyByExpiryClearedOnlyByTake :
    (∃ t, step { channelState 6 0 1 false with inputs := [.step .tick] } = .next t ∧
      (channelState 6 0 1 false).trig[6] = false ∧ t.trig[6] = true) ∧
    (∃ t, step (busy [Claims.ev (.take 6)]) = .next t ∧ (busy []).trig[6] = true ∧ t.trig[6] = false) ∧
    (∃ t, step (busy [.reset]) = .next t ∧ (busy []).trig[6] = true ∧ t.trig[6] = false) :=
  ⟨⟨_, rfl, by decide⟩, ⟨_, rfl, by decide⟩, ⟨_, rfl, by decide⟩⟩

theorem witness_FlagSetOnlyByTickClearedOnlyByTakef :
    (∃ t, step { dividerState 3 10 false false with inputs := [.step .tick] } = .next t ∧
      (dividerState 3 10 false false).flag[0] = false ∧ t.flag[0] = true) ∧
    (∃ t, step { dividerState 0 49 false false with inputs := [.step .tick] } = .next t ∧
      (dividerState 0 49 false false).flag[1] = false ∧ t.flag[1] = true) ∧
    (∃ t, step (busy [Claims.ev (.takef 1)]) = .next t ∧ (busy []).flag[1] = true ∧ t.flag[1] = false) ∧
    (∃ t, step (busy [.reset]) = .next t ∧ (busy []).flag[0] = true ∧ t.flag[0] = false) :=
  ⟨⟨_, rfl, by decide⟩, ⟨_, rfl, by decide⟩, ⟨_, rfl, by decide⟩, ⟨_, rfl, by decide⟩⟩

theorem witness_DividersAndContextWriters :
    (∃ t, step (busy [.step .tick]) = .next t ∧ t.div4 ≠ (busy []).div4) ∧
    (∃ t, step (busy [Claims.ev (.setctx 0xF5)]) = .next t ∧ t.ctx ≠ (busy []).ctx) ∧
    (∃ t, step (busy [.reset]) = .next t ∧ t.div50 ≠ (busy []).div50 ∧ t.ctx ≠ (busy []).ctx) :=
  ⟨⟨_, rfl, by decide⟩, ⟨_, rfl, by decide⟩, ⟨_, rfl, by decide⟩⟩

theorem witness_ChannelsAreIndependent_command :
    ∃ t, (19 : Channel) ≠ 6 ∧ exec (.arm (Claims.chId 19) 5) (busy []) = .next t := ⟨_, by decide, rfl⟩

/-- Two states that agree on channel 19 and differ on channel 6, the flags, the dividers and the responses. -/
theorem witness_ChannelsAreIndependent : ∃ t t',
    RunsTo 2 (busy [.step .tick, Claims.ev (.take 19)]) t ∧
    RunsTo 2 { channelState 19 0x11 4294967295 false with inputs := [.step .tick, Claims.ev (.take 19)] } t' ∧
    (busy []).count[19] = (channelState 19 0x11 4294967295 false).count[19] ∧
    (busy []).trig[19] = (channelState 19 0x11 4294967295 false).trig[19] ∧
    (busy []).ctx = (channelState 19 0x11 4294967295 false).ctx :=
  ⟨_, _, rfl, rfl, by decide⟩

theorem witness_CountNeverRisesWithoutArm :
    (∃ t, exec .tick (busy []) = .next t) ∧
    (∀ e ∈ (busy [.step .tick, Claims.ev (.arm 7 5), .reset]).inputs.take 3, armsChannel 6 e = false) ∧
    (∃ t, RunsTo 3 (busy [.step .tick, Claims.ev (.arm 7 5), .reset]) t) :=
  ⟨⟨_, rfl⟩, by decide, ⟨_, rfl⟩⟩

/-- Two settings of one trigger, with the rearm between. -/
theorem witness_TriggerIsOneShot : ∃ t u,
    setsTrigger 6 { channelState 6 0 1 false with inputs := [.step .tick, Claims.ev (.arm 6 1), .step .tick] } = true ∧
    step { channelState 6 0 1 false with inputs := [.step .tick, Claims.ev (.arm 6 1), .step .tick] } = .next t ∧
    RunsTo 1 t u ∧ setsTrigger 6 u = true :=
  ⟨_, _, by decide, rfl, rfl, by decide⟩

/-- A run that reaches 0 exactly, and one that does not, with a command of another channel between. -/
theorem witness_ExpiryLaw :
    (∃ t, (∀ e ∈ (ready [.step .tick, Claims.ev (.take 7), .step .tick]).inputs.take 3,
        armsChannel 6 e = false ∧ e ≠ .reset ∧ takesTrigger 6 e = false) ∧
      RunsTo 3 { channelState 6 0 2 false with inputs := [.step .tick, Claims.ev (.take 7), .step .tick] } t) ∧
    enabledTicks 6 3 { channelState 6 0 2 false with inputs := [.step .tick, Claims.ev (.take 7), .step .tick] } = 2 ∧
    enabledTicks 1 2 (busy [.step .tick, .step .tick]) = 0 :=
  ⟨⟨_, by decide, rfl⟩, by decide, by decide⟩

theorem witness_CoarseFlagsSetAtMultiplesSinceReset : ∃ t,
    Event.reset ∉ ([.step .tick, Claims.ev .nop, .step .tick, .step .tick, .step .tick] : List Event) ∧
    RunsTo 4 { State.reset with inputs := [.step .tick, Claims.ev .nop, .step .tick, .step .tick, .step .tick] } t ∧
    nextIsTick t = true ∧
    ticks 4 { State.reset with inputs := [.step .tick, Claims.ev .nop, .step .tick, .step .tick, .step .tick] } = 3 :=
  ⟨_, by decide, rfl, by decide, by decide⟩

theorem witness_RunningUngatedChannelExpiresUnderFairness :
    (6 : Channel) ≠ 1 ∧ (6 : Channel) ≠ 2 ∧ (6 : Channel) ≠ 10 ∧ WeaklyFair (fun _ => .step .tick) ∧
    (∀ m : Nat, armsChannel 6 ((fun _ => .step .tick : Nat → Event) m) = false ∧
      (fun _ => .step .tick : Nat → Event) m ≠ .reset) ∧ (busy []).count[6] ≠ 0 :=
  ⟨by decide, by decide, by decide, fun n => ⟨n, Nat.le_refl n, rfl⟩, fun _ => ⟨rfl, nofun⟩, by decide⟩

/-- With only pulses to come, one at least, and the dual-watch gate open, after the pulses before the last the next step
is an enabled TICK step for channel 1. -/
theorem enabled_after_pulses (m : Nat) : ∀ s : State, s.inputs = List.replicate (m + 1) (.step .tick) → s.ctx = 0x10 →
    ∃ u, RunsTo m s u ∧ nextIsEnabledTick 1 u = true := by
  induction m with
  | zero => exact fun s hi hc => ⟨s, rfl, by simp [nextIsEnabledTick, nextIsTick, hi, hc]; decide⟩
  | succ m ih =>
    intro s hi hc
    obtain ⟨u, hr, hu⟩ := ih (Laws.ticked { s with inputs := List.replicate (m + 1) (.step .tick) }) rfl hc
    exact ⟨u, Laws.runsTo_succ.2 ⟨_, Laws.step_of_cons hi, hr⟩, hu⟩

/-- Channel 1, gated, running with its gate open, and pulses for ever. -/
theorem witness_RunningChannelExpiresIfItsGateKeepsOpening :
    (∀ m : Nat, armsChannel 1 ((fun _ => .step .tick : Nat → Event) m) = false ∧
      (fun _ => .step .tick : Nat → Event) m ≠ .reset) ∧ (channelState 1 0x10 5 false).count[1] ≠ 0 ∧
    (∀ n, ∃ m u, n ≤ m ∧ RunsTo m ((channelState 1 0x10 5 false).awaiting (fun _ => .step .tick) (m + 1)) u ∧
      nextIsEnabledTick 1 u = true) := by
  refine ⟨fun _ => ⟨rfl, nofun⟩, by decide, fun n => ?_⟩
  obtain ⟨u, hr, hu⟩ := enabled_after_pulses n
    ((channelState 1 0x10 5 false).awaiting (fun _ => .step .tick) (n + 1)) (by simp [State.awaiting]) rfl
  exact ⟨n, u, Nat.le_refl n, hr, hu⟩

theorem witness_CancelSuppressesTheTrigger :
    (∃ t, (busy [Claims.ev (cancel (Claims.chId 6)), .step .tick, Claims.ev (cancel 6)]).inputs =
        Claims.ev (cancel (Claims.chId 6)) :: [.step .tick, Claims.ev (cancel 6)] ∧
      (∀ e ∈ [Event.step .tick, Claims.ev (cancel 6)].take 2, rearmsChannel 6 e = false) ∧
      RunsTo 3 (busy [Claims.ev (cancel (Claims.chId 6)), .step .tick, Claims.ev (cancel 6)]) t) ∧
    ((busy [Claims.ev (cancel (Claims.chId 7))]).inputs = Claims.ev (cancel (Claims.chId 7)) :: [] ∧
      (busy []).count[7] = 0) :=
  ⟨⟨_, by decide, by decide, rfl⟩, by decide⟩

/-- Arming with 0 and with a positive value, with a TICK and a command of another channel between. -/
theorem witness_ArmKeepsAPendingTrigger :
    (∃ t, exec (.arm (Claims.chId 6) 0) (busy []) = .next t) ∧ (busy []).trig[6] = true ∧
    (∀ e ∈ [Event.step .tick, Claims.ev (.take 7)], takesTrigger 6 e = false ∧ e ≠ .reset) ∧
    (∃ t, RunsTo 4 (busy (Claims.ev (.arm (Claims.chId 6) 0) :: [.step .tick, Claims.ev (.take 7)] ++
      [Claims.ev (.take (Claims.chId 6))])) t) ∧
    (∃ t, RunsTo 4 (busy (Claims.ev (.arm (Claims.chId 6) 9) :: [.step .tick, Claims.ev (.take 7)] ++
      [Claims.ev (.take (Claims.chId 6))])) t) :=
  ⟨⟨_, rfl⟩, by decide, by decide, ⟨_, rfl⟩, ⟨_, rfl⟩⟩

theorem witness_TakenBitIsDeliveredOnce :
    (∃ t, Event.step .tick ∉ [Claims.ev .nop] ∧
      RunsTo 3 (busy (Claims.ev (.take (Claims.chId 6)) :: [Claims.ev .nop] ++
        [Claims.ev (.take (Claims.chId 6))])) t) ∧
    (∃ t, Event.step .tick ∉ [Event.reset] ∧
      RunsTo 3 (busy (Claims.ev (.takef (Claims.flagId 1)) :: [.reset] ++
        [Claims.ev (.takef (Claims.flagId 1))])) t) :=
  ⟨⟨_, by decide, rfl⟩, ⟨_, by decide, rfl⟩⟩

theorem witness_CancelThenClearLeavesNoResidue : ∃ t,
    (∀ e ∈ [Event.step .tick] ++ [Event.step .tick, Claims.ev (cancel 6)], rearmsChannel 6 e = false) ∧
    RunsTo 5 (busy (Claims.ev (cancel (Claims.chId 6)) :: [.step .tick] ++
      Claims.ev (clrtrig (Claims.chId 6)) :: [.step .tick, Claims.ev (cancel 6)])) t :=
  ⟨_, by decide, rfl⟩

theorem witness_ArmThenClearDropsTheExpiry : ∃ t,
    gate 6 (busy []).ctx = true ∧ (2 : Word) ≠ 0 ∧
    RunsTo 4 (busy (Claims.ev (.arm (Claims.chId 6) 2) :: List.replicate 2 (.step .tick) ++
      [Claims.ev (clrtrig (Claims.chId 6))])) t :=
  ⟨_, by decide, by decide, rfl⟩

theorem witness_ArmedValueReadsBack : ∃ t,
    (∀ e ∈ [Claims.ev (.arm 7 5), Claims.ev (.take 6)], e ≠ .step .tick ∧ armsChannel 6 e = false ∧ e ≠ .reset) ∧
    RunsTo 4 (busy (Claims.ev (.arm (Claims.chId 6) 60) :: [Claims.ev (.arm 7 5), Claims.ev (.take 6)] ++
      [Claims.ev (.rdcnt (Claims.chId 6))])) t :=
  ⟨_, by decide, rfl⟩

theorem witness_TickAndTakeInEitherOrder :
    gate 6 (channelState 6 0 1 false).ctx = true ∧ (channelState 6 0 1 false).count[6] = 1 ∧
    (channelState 6 0 1 false).trig[6] = false := by decide

theorem witness_SetmodeChangesTheModeAlone : ∃ t,
    (busy []).Inv ∧
    RunsTo 3 (busy (Claims.ev .rdctx :: List.replicate 1 (.step .tick) ++
      [Claims.ev (setmodeSecond .powerSaving (busy []).ctx)])) t :=
  ⟨_, by decide, rfl⟩

end Sys2Proof.Tests
end

/-! PROOFS. No run stops, and the responses given before a run do not matter to it (spec/00_scope.md R7, log 3).
The simulation is between a state and the same state under another list of given responses: every operation
commutes with changing that list, and adds the same responses at its end. -/

namespace Sys2Proof.Proofs

open Sys2Proof.Machine Sys2Proof.Laws

/-- The state `s` as it would be had the responses `given` gone out before it. -/
def withResponses (given : List Response) (s : State) : State := { s with responses := given }

/-- The operation completes on every state, and its outcome is one block state, one list of events to come and one
list of added responses, whatever responses were given before. -/
def IgnoresGiven (f : State → Result) : Prop :=
  ∀ s, ∃ t out, ∀ given, f (withResponses given s) = .next (withResponses (given ++ out) t)

/-- States that agree on the block and on the events to come differ in the responses given alone. -/
theorem eq_withResponses {s s' : State} (hb : SameBlock s s') (hi : s.inputs = s'.inputs) :
    s' = withResponses s'.responses s := by
  obtain ⟨hcount, htrig, hflag, hdiv4, hdiv50, hctx⟩ := hb
  cases s'
  simp_all [withResponses]

/-- An operation that leaves the responses as they are adds none. -/
theorem ignoresGiven_of_silent {f : State → Result} (w : State → State)
    (h : ∀ given s, f (withResponses given s) = .next (withResponses given (w s))) : IgnoresGiven f :=
  fun s => ⟨w s, [], fun given => by rw [List.append_nil, h]⟩

theorem reject_ignoresGiven (st : Status) : IgnoresGiven (reject st) :=
  fun s => ⟨s, [⟨st, 0⟩], fun _ => rfl⟩

theorem onChannel_ignoresGiven (ch : IdField) {effect : Channel → State → Result}
    (h : ∀ i, IgnoresGiven (effect i)) : IgnoresGiven fun s => onChannel ch s fun i => effect i s := by
  cases hc : channel? ch with
  | none => simpa only [onChannel_none hc] using reject_ignoresGiven .badId
  | some i => simpa only [onChannel_some hc] using h i

theorem onFlag_ignoresGiven (f : IdField) {effect : Flag → State → Result}
    (h : ∀ k, IgnoresGiven (effect k)) : IgnoresGiven fun s => onFlag f s fun k => effect k s := by
  cases hf : flag? f with
  | none => simpa only [onFlag_none hf] using reject_ignoresGiven .badId
  | some k => simpa only [onFlag_some hf] using h k

theorem exec_ignoresGiven (i : Instr) : IgnoresGiven (exec i) := by
  cases i with
  | nop => exact fun s => ⟨s, [⟨.ok, 0⟩], fun _ => rfl⟩
  | arm ch v => exact onChannel_ignoresGiven ch fun i s => ⟨writeCount i v s, [⟨.ok, 0⟩], fun _ => rfl⟩
  | rdcnt ch => exact onChannel_ignoresGiven ch fun i s => ⟨s, [⟨.ok, readCount i s⟩], fun _ => rfl⟩
  | rdtrig ch => exact onChannel_ignoresGiven ch fun i s => ⟨s, [⟨.ok, zextBit (readTrig i s)⟩], fun _ => rfl⟩
  | take ch =>
    exact onChannel_ignoresGiven ch fun i s => ⟨clearTrig i s, [⟨.ok, zextBit (readTrig i s)⟩], fun _ => rfl⟩
  | rdflag f => exact onFlag_ignoresGiven f fun k s => ⟨s, [⟨.ok, zextBit (readFlag k s)⟩], fun _ => rfl⟩
  | takef f =>
    exact onFlag_ignoresGiven f fun k s => ⟨clearFlag k s, [⟨.ok, zextBit (readFlag k s)⟩], fun _ => rfl⟩
  | setctx v =>
    intro s
    cases h : legalCtx v with
    | true => exact ⟨writeCtx v s, [⟨.ok, 0⟩], fun _ => exec_setctx_legal h _⟩
    | false => exact ⟨s, [⟨.badOperand, 0⟩], fun _ => exec_setctx_illegal h _⟩
  | rdctx => exact fun s => ⟨s, [⟨.ok, s.ctx⟩], fun _ => rfl⟩
  | tick => exact ignoresGiven_of_silent ticked fun _ _ => rfl

theorem performStep_ignoresGiven (x : TraceStep) : IgnoresGiven (performStep x) := by
  cases hd : decode x with
  | instr i => exact funext (performStep_instr hd) ▸ exec_ignoresGiven i
  | rejected st => exact funext (performStep_rejected hd) ▸ reject_ignoresGiven st

theorem performEvent_ignoresGiven (e : Event) : IgnoresGiven (performEvent e) := by
  cases e with
  | reset => exact ignoresGiven_of_silent resetBlock fun _ _ => rfl
  | step x => exact performStep_ignoresGiven x

theorem step_ignoresGiven : IgnoresGiven step := by
  intro s
  cases hs : s.inputs with
  | nil => exact ⟨s, [], fun given => by rw [List.append_nil, step_of_nil (s := withResponses given s) hs]⟩
  | cons e rest =>
    obtain ⟨t, out, h⟩ := performEvent_ignoresGiven e { s with inputs := rest }
    exact ⟨t, out, fun given => (step_of_cons (s := withResponses given s) hs).trans (h given)⟩

/-- Runs chain the steps: what each step adds comes after what the steps before it added. -/
theorem run_ignoresGiven (n : Nat) : IgnoresGiven (core.run n) := by
  induction n with
  | zero => exact ignoresGiven_of_silent id fun _ _ => rfl
  | succ n ih =>
    intro s
    obtain ⟨u, out₁, hstep⟩ := step_ignoresGiven s
    obtain ⟨t, out₂, hrun⟩ := ih u
    refine ⟨t, out₁ ++ out₂, fun given => runsTo_succ.2 ⟨_, hstep given, ?_⟩⟩
    rw [← List.append_assoc]
    exact hrun (given ++ out₁)

/-- Settles O4: the second state is the first under other responses given, and a run ignores those. -/
theorem runNeverStopsAndIsAFunctionOfStateAndTrace :
    Obligations.RunNeverStopsAndIsAFunctionOfStateAndTrace := by
  intro n s s' hb hi
  obtain ⟨t, out, hrun⟩ := run_ignoresGiven n s
  refine ⟨withResponses (s.responses ++ out) t, withResponses (s'.responses ++ out) t, out,
    hrun s.responses, ?_, ⟨rfl, rfl, rfl, rfl, rfl, rfl⟩, rfl, rfl, rfl⟩
  rw [eq_withResponses hb hi]
  exact hrun s'.responses

end Sys2Proof.Proofs

/-! PROOFS. Who writes each piece of state, who reads it, and its value at reset (spec/10_state.md). The decoder
reads each instruction from its own word alone, so a step that performs an instruction names the event it took;
what a step does to a channel's pair, to `CTX` and to a flag is then said once each. -/

namespace Sys2Proof.Proofs

open Sys2Proof.Machine Sys2Proof.Laws

/-! ### A decoded instruction names its event -/

/-- A field inside a field of zeros is zero. -/
theorem extractLsb'_eq_zero_of_within {w : CmdWord} {a n b m : Nat} (h : w.extractLsb' a n = 0)
    (hab : a ≤ b := by omega) (hend : b + m ≤ a + n := by omega) : w.extractLsb' b m = 0 := by
  apply BitVec.eq_of_getLsbD_eq
  intro k hk
  have hbit := congrArg (fun v : BitVec n => v.getLsbD (b - a + k)) h
  simp only [BitVec.getLsbD_extractLsb', ← Nat.add_assoc, Nat.add_sub_cancel' hab] at hbit
  simpa [hk, show b - a + k < n by omega] using hbit

/-- The must-be-zero bits of a format cover the middle field and every operand the format does not use. -/
theorem fields_eq_zero_of_mbz {fmt : Format} {w : CmdWord} (h : w &&& mbzMask fmt = 0) :
    w.extractLsb' 32 16 = 0 ∧ (fmt = .z ∨ fmt = .i → idField w = 0) ∧
      (fmt ≠ .ci → fmt ≠ .i → immField w = 0) := by
  have hz := (mbzMask_iff fmt w).1 h
  cases fmt with
  | z =>
    exact ⟨extractLsb'_eq_zero_of_within hz, fun _ => extractLsb'_eq_zero_of_within hz,
      fun _ _ => extractLsb'_eq_zero_of_within hz⟩
  | c | f => exact ⟨extractLsb'_eq_zero_of_within hz, by simp, fun _ _ => extractLsb'_eq_zero_of_within hz⟩
  | ci => exact ⟨hz, by simp, by simp⟩
  | i => exact ⟨extractLsb'_eq_zero_of_within hz, fun _ => extractLsb'_eq_zero_of_within hz, by simp⟩

theorem eq_packWord {w : CmdWord} {op : Opcode} (hop : opField w = opcodeByte op)
    (hmid : w.extractLsb' 32 16 = 0) : w = packWord op (idField w) (immField w) := by
  conv_lhs => rw [cmdWord_eq_fields w, hop, hmid]
  rfl

/-- A word that passes the decoder's checks is the word the encoder gives its instruction. -/
theorem command_eq_encode {w : CmdWord} {op : Opcode} (hop : opField w = opcodeByte op)
    (hz : w &&& mbzMask (formatOf op) = 0) :
    TraceStep.command w = encode (instrOf op (idField w) (immField w)) := by
  obtain ⟨hmid, hid, himm⟩ := fields_eq_zero_of_mbz hz
  have hw := eq_packWord hop hmid
  cases op
  case nop | rdctx =>
    rw [hid (.inl rfl), himm (by decide) (by decide)] at hw
    exact congrArg _ hw
  case rdcnt | rdtrig | take | rdflag | takef =>
    rw [himm (by decide) (by decide)] at hw
    exact congrArg _ hw
  case setctx =>
    rw [hid (.inr rfl)] at hw
    exact congrArg _ hw
  case arm => exact congrArg _ hw

/-- The decoder reads an instruction from its own encoding alone. -/
theorem eq_encode_of_decode {x : TraceStep} {i : Instr} (h : decode x = .instr i) : x = encode i := by
  cases x with
  | tick =>
    cases h
    rfl
  | command w =>
    obtain ⟨_, e⟩ | ⟨op, hop, ⟨_, e⟩ | ⟨hz, ⟨_, _, e⟩ | ⟨_, e⟩⟩⟩ := decode_command_cases w
    all_goals cases h.symm.trans e
    exact command_eq_encode hop hz

theorem eq_chId_of_channel? {ch : IdField} {i : Channel} (h : channel? ch = some i) : ch = Claims.chId i := by
  apply BitVec.eq_of_toNat_eq
  rw [(channel?_eq_some_iff _ _).1 h, (channel?_eq_some_iff _ _).1 (channel?_ofNat i)]

theorem eq_flagId_of_flag? {f : IdField} {k : Flag} (h : flag? f = some k) : f = Claims.flagId k := by
  apply BitVec.eq_of_toNat_eq
  rw [(flag?_eq_some_iff _ _).1 h, (flag?_eq_some_iff _ _).1 (flag?_ofNat k)]

theorem ev_arm_of_decode {x : TraceStep} {ch : IdField} {v : Word} {i : Channel}
    (hd : decode x = .instr (.arm ch v)) (hch : channel? ch = some i) :
    Event.step x = Claims.ev (.arm (Claims.chId i) v) := by
  rw [eq_encode_of_decode hd, eq_chId_of_channel? hch]

theorem ev_take_of_decode {x : TraceStep} {ch : IdField} {i : Channel}
    (hd : decode x = .instr (.take ch)) (hch : channel? ch = some i) :
    Event.step x = Claims.ev (.take (Claims.chId i)) := by
  rw [eq_encode_of_decode hd, eq_chId_of_channel? hch]

theorem ev_takef_of_decode {x : TraceStep} {f : IdField} {k : Flag}
    (hd : decode x = .instr (.takef f)) (hf : flag? f = some k) :
    Event.step x = Claims.ev (.takef (Claims.flagId k)) := by
  rw [eq_encode_of_decode hd, eq_flagId_of_flag? hf]

/-! ### Counts and triggers -/

theorem nextIsTick_of_cons {s : State} {rest : List Event} (h : s.inputs = .step .tick :: rest) :
    nextIsTick s = true := by
  simp [nextIsTick, h]

/-- A TICK step that changes a count has the gate open and lowers the count by one. -/
theorem tickCount_ne {g : Bool} {v : Word} (h : tickCount g v ≠ v) :
    g = true ∧ (tickCount g v).toNat + 1 = v.toNat := by
  cases g with
  | false => exact absurd (tickCount_closed v) h
  | true =>
    have hval := tickCount_open_toNat v
    have hne : (tickCount true v).toNat ≠ v.toNat := fun e => h (BitVec.eq_of_toNat_eq e)
    exact ⟨rfl, by omega⟩

/-- Settles O37: the three writers of a count are the constructors of `PairStep` that change it. -/
theorem countWrittenOnlyByTickAndArm : Obligations.CountWrittenOnlyByTickAndArm := by
  intro s t i hstep hne
  cases pairStep_of_step i hstep with
  | reset rest hin hc => exact .inr (.inr ⟨rest, hin, hc⟩)
  | tick rest hin hc =>
    rw [hc] at hne ⊢
    obtain ⟨hgate, hdec⟩ := tickCount_ne hne
    exact .inl ⟨by simp [nextIsEnabledTick, nextIsTick_of_cons hin, hgate], hdec⟩
  | arm rest x ch v hin hd hch hc =>
    exact .inr (.inl ⟨v, rest, by rw [hin, ev_arm_of_decode hd hch], hc⟩)
  | idle _ hc | take _ _ _ _ _ _ hc | other _ _ _ _ _ _ hc => exact absurd hc hne

/-- Settles O38: a TICK only sets, at the expiry; `TAKE` and reset only clear; every other step keeps the trigger. -/
theorem triggerSetOnlyByExpiryClearedOnlyByTake : Obligations.TriggerSetOnlyByExpiryClearedOnlyByTake := by
  intro s t i hstep
  cases pairStep_of_step i hstep with
  | reset rest hin _ ht => exact ⟨by simp [ht], fun _ _ => ⟨rest, .inr hin⟩⟩
  | tick rest hin hc ht =>
    have hiff := tickTrig_iff (gate i s.ctx) s.count[i] s.trig[i]
    rw [← ht] at hiff
    refine ⟨fun hclear hset => ?_, fun hset hclear => ?_⟩
    · obtain hset | ⟨hgate, hone⟩ := hiff.1 hset
      · simp [hclear] at hset
      · exact ⟨nextIsTick_of_cons hin, hone, by rw [hc, hgate, hone]; rfl⟩
    · rw [hiff.2 (.inl hset)] at hclear
      cases hclear
  | take rest x ch hin hd hch _ ht =>
    exact ⟨by simp [ht], fun _ _ => ⟨rest, .inl (by rw [hin, ev_take_of_decode hd hch])⟩⟩
  | idle _ _ ht | arm _ _ _ _ _ _ _ _ ht | other _ _ _ _ _ _ _ ht => simp +contextual [ht]

/-! ### The coarse flags -/

/-- Everything one step can do to the flag `f` (spec/10_state.md R19). -/
inductive FlagStep (f : Flag) (s t : State) : Prop where
  | kept (hf : t.flag[f] = s.flag[f])
  | reset (rest : List Event) (h : s.inputs = .reset :: rest) (hf : t.flag[f] = false)
  | tick (rest : List Event) (h : s.inputs = .step .tick :: rest)
      (hf : t.flag[f] = true ↔ s.flag[f] = true ∨ (f = 0 ∧ t.div4 = 0) ∨ (f = 1 ∧ t.div50 = 0))
  | takef (rest : List Event) (h : s.inputs = Claims.ev (.takef (Claims.flagId f)) :: rest)
      (hf : t.flag[f] = false)

theorem ticked_flag_iff (f : Flag) (s : State) : (ticked s).flag[f] = true ↔
    s.flag[f] = true ∨ (f = 0 ∧ (ticked s).div4 = 0) ∨ (f = 1 ∧ (ticked s).div50 = 0) := by
  match f with
  | 0 =>
    have h := tickF40_iff s.div4 s.flag[0]
    rw [← ticked_f40] at h
    simpa using h
  | 1 =>
    have h := tickF500_iff s.div50 s.flag[1]
    rw [← ticked_f500] at h
    simpa using h

theorem flagStep_of_step {s t : State} (f : Flag) (h : step s = .next t) : FlagStep f s t := by
  obtain ⟨_, rfl⟩ | ⟨rest, hin, rfl⟩ | ⟨x, rest, st, _, _, rfl⟩ | ⟨x, rest, ins, hin, hd, he⟩ := step_cases h
  · exact .kept rfl
  · exact .reset rest hin (by simp [State.reset])
  · exact .kept rfl
  · cases he with
    | silent | armed | taken | ctxSet => exact .kept rfl
    | flagTaken id k hk =>
      have e := clearFlag_getElem k f { s with inputs := rest }
      by_cases hfk : f = k
      · subst hfk
        exact .takef rest (by rw [hin, ev_takef_of_decode hd hk]) (e.trans (if_pos rfl))
      · exact .kept (e.trans (if_neg hfk))
    | ticked =>
      cases eq_tick_of_decode hd
      exact .tick rest hin (ticked_flag_iff f { s with inputs := rest })

/-- Settles O39: a TICK only sets, at the boundary; `TAKEF` and reset only clear; every other step keeps the flag. -/
theorem flagSetOnlyByTickClearedOnlyByTakef : Obligations.FlagSetOnlyByTickClearedOnlyByTakef := by
  intro s t f hstep
  cases flagStep_of_step f hstep with
  | kept hf => simp +contextual [hf]
  | reset rest hin hf => exact ⟨by simp [hf], fun _ _ => ⟨rest, .inr hin⟩⟩
  | tick rest hin hf =>
    refine ⟨fun hclear hset => ⟨nextIsTick_of_cons hin, ?_⟩, fun hset hclear => ?_⟩
    · obtain hset | ⟨rfl, h4⟩ | ⟨rfl, h50⟩ := hf.1 hset
      · simp [hclear] at hset
      · exact ⟨fun _ => h4, by simp⟩
      · exact ⟨by simp, fun _ => h50⟩
    · rw [hf.2 (.inl hset)] at hclear
      cases hclear
  | takef rest hin hf => exact ⟨by simp [hf], fun _ _ => ⟨rest, .inl hin⟩⟩

/-! ### Channels do not read each other -/

/-- What the next event makes of the pair of channel `i`: it reads the events to come, `CTX` and that pair. -/
def pairAfter (i : Channel) (inputs : List Event) (ctx : Word) (pair : Word × Bool) : Word × Bool :=
  match inputs with
  | [] => pair
  | .reset :: _ => (0, false)
  | .step x :: _ =>
    match decode x with
    | .instr .tick => (tickCount (gate i ctx) pair.1, tickTrig (gate i ctx) pair.1 pair.2)
    | .instr (.arm ch v) => if channel? ch = some i then (v, pair.2) else pair
    | .instr (.take ch) => if channel? ch = some i then (pair.1, false) else pair
    | _ => pair

/-- What the next event makes of `CTX`: it reads the events to come and `CTX`. -/
def ctxAfter (inputs : List Event) (ctx : Word) : Word :=
  match inputs with
  | [] => ctx
  | .reset :: _ => 0
  | .step x :: _ =>
    match decode x with
    | .instr (.setctx v) => v
    | _ => ctx

/-- An event that is no `TICK`, no `ARM` and no `TAKE` of a channel leaves its pair. -/
theorem pairAfter_other {i : Channel} {x : TraceStep} (hx : x ≠ .tick) (ha : armsChannel i (.step x) = false)
    (hk : takesTrigger i (.step x) = false) (rest : List Event) (ctx : Word) (pair : Word × Bool) :
    pairAfter i (.step x :: rest) ctx pair = pair := by
  cases hd : decode x with
  | rejected st => simp [pairAfter, hd]
  | instr ins =>
    cases ins with
    | tick => exact absurd (eq_tick_of_decode hd) hx
    | arm ch v =>
      have hne : channel? ch ≠ some i := by simpa [armsChannel, hd] using ha
      simp [pairAfter, hd, hne]
    | take ch =>
      have hne : channel? ch ≠ some i := by simpa [takesTrigger, hd] using hk
      simp [pairAfter, hd, hne]
    | nop | rdcnt | rdtrig | rdflag | takef | setctx | rdctx => simp [pairAfter, hd]

theorem pair_of_step {s t : State} (i : Channel) (h : step s = .next t) :
    (t.count[i], t.trig[i]) = pairAfter i s.inputs s.ctx (s.count[i], s.trig[i]) := by
  cases pairStep_of_step i h with
  | idle hin hc ht => rw [hin, hc, ht]; rfl
  | reset rest hin hc ht => rw [hin, hc, ht]; rfl
  | tick rest hin hc ht => rw [hin, hc, ht]; rfl
  | arm rest x ch v hin hd hch hc ht => simp [pairAfter, hin, hd, hch, hc, ht]
  | take rest x ch hin hd hch hc ht => simp [pairAfter, hin, hd, hch, hc, ht]
  | other rest x hin hx ha hk hc ht => rw [hin, pairAfter_other hx ha hk, hc, ht]

theorem ctx_of_step {s t : State} (h : step s = .next t) : t.ctx = ctxAfter s.inputs s.ctx := by
  obtain ⟨hin, rfl⟩ | ⟨rest, hin, rfl⟩ | ⟨x, rest, st, hin, hd, rfl⟩ | ⟨x, rest, ins, hin, hd, he⟩ := step_cases h
  · simp [hin, ctxAfter]
  · simp [hin, ctxAfter, State.reset]
  · simp [hin, ctxAfter, hd]
  · have hw := wf_of_decode hd
    cases he with
    | silent _ r hr =>
      cases ins with
      | setctx v => simp [readsOnly, hw] at hr
      | _ => simp [hin, ctxAfter, hd]
    | armed | taken | flagTaken | ctxSet | ticked => simp [hin, ctxAfter, hd]

/-- Two states agree on the pair of channel `i` and on all that its next value may depend on. -/
def AgreeOn (i : Channel) (s s' : State) : Prop :=
  s.inputs = s'.inputs ∧ s.ctx = s'.ctx ∧ (s.count[i], s.trig[i]) = (s'.count[i], s'.trig[i])

theorem agreeOn_of_step {i : Channel} {s s' t t' : State} (h : step s = .next t) (h' : step s' = .next t')
    (ha : AgreeOn i s s') : AgreeOn i t t' := by
  obtain ⟨hin, hctx, hpair⟩ := ha
  refine ⟨?_, ?_, ?_⟩
  · rw [inputs_of_step h, inputs_of_step h', hin]
  · rw [ctx_of_step h, ctx_of_step h', hin, hctx]
  · rw [pair_of_step i h, pair_of_step i h', hin, hctx, hpair]

theorem agreeOn_of_runsTo {n : Nat} {i : Channel} {s s' t t' : State} (h : RunsTo n s t) (h' : RunsTo n s' t')
    (ha : AgreeOn i s s') : AgreeOn i t t' := by
  induction n generalizing s s' with
  | zero =>
    rw [runsTo_zero.1 h, runsTo_zero.1 h']
    exact ha
  | succ n ih =>
    obtain ⟨u, hu, hrun⟩ := runsTo_succ.1 h
    obtain ⟨u', hu', hrun'⟩ := runsTo_succ.1 h'
    exact ih hrun hrun' (agreeOn_of_step hu hu' ha)

/-- A command on channel `j` keeps the pair of every other channel. -/
theorem pair_of_command_elsewhere {s t : State} {i j : Channel} {v : Word} {ins : Instr} (hji : j ≠ i)
    (hins : ins = .arm (Claims.chId j) v ∨ ins = .rdcnt (Claims.chId j) ∨ ins = .rdtrig (Claims.chId j) ∨
      ins = .take (Claims.chId j))
    (h : exec ins s = .next t) : t.count[i] = s.count[i] ∧ t.trig[i] = s.trig[i] := by
  have hj : channel? (Claims.chId j) = some j := channel?_ofNat j
  obtain rfl | rfl | rfl | rfl := hins
  · cases (exec_arm hj v s).symm.trans h
    exact ⟨(writeCount_getElem j i v s).trans (if_neg hji.symm), rfl⟩
  · cases (exec_rdcnt hj s).symm.trans h
    exact ⟨rfl, rfl⟩
  · cases (exec_rdtrig hj s).symm.trans h
    exact ⟨rfl, rfl⟩
  · cases (exec_take hj s).symm.trans h
    exact ⟨rfl, (clearTrig_getElem j i s).trans (if_neg hji.symm)⟩

/-- Settles O41: the pair after a step is a function of the events, of `CTX` and of the pair before it. -/
theorem channelsAreIndependent : Obligations.ChannelsAreIndependent := by
  refine ⟨fun s t i j v ins hji hins h => pair_of_command_elsewhere hji hins h, ?_⟩
  intro n i s s' t t' hin hctx hcount htrig hrun hrun'
  obtain ⟨_, _, hpair⟩ := agreeOn_of_runsTo hrun hrun' ⟨hin, hctx, Prod.ext hcount htrig⟩
  exact Prod.ext_iff.1 hpair

/-! ### Reset -/

theorem reset_count (i : Channel) : State.reset.count[i] = 0 := by
  simp [State.reset]

theorem reset_trig (i : Channel) : State.reset.trig[i] = false := by
  simp [State.reset]

theorem reset_flag (f : Flag) : State.reset.flag[f] = false := by
  simp [State.reset]

/-- Settles O1: the block after the reset event is the block of `State.reset`, field by field. -/
theorem resetSetsEveryPieceOfState : Obligations.ResetSetsEveryPieceOfState := by
  refine ⟨fun s rest hin => ⟨_, step_of_cons hin, ?_⟩, ?_⟩
  · exact ⟨fun i => ⟨reset_count i, reset_trig i⟩, reset_flag, rfl, rfl, rfl⟩
  · exact ⟨fun i => ⟨reset_count i, reset_trig i⟩, reset_flag, rfl, rfl, rfl⟩

/-! ### Gates -/

theorem modeLetsAlternate_iff (ctx : Word) : modeLetsAlternate ctx = true ↔
    ctx.toNat % 8 ≠ 1 ∧ ctx.toNat % 8 ≠ 3 ∧ ctx.toNat % 8 ≠ 4 := by
  simp only [modeLetsAlternate, Bool.and_eq_true, ctxMode_bne_iff, and_assoc]
  rfl

theorem modeLetsScan_iff (ctx : Word) : modeLetsScan ctx = true ↔
    ctx.toNat % 8 ≠ 4 ∧ ctx.toNat % 8 ≠ 3 := by
  simp only [modeLetsScan, Bool.and_eq_true, ctxMode_bne_iff]
  rfl

/-- With `CTX` at 0, a legal value, each of the three gates is closed. -/
theorem exists_legal_ctx_gate_false {i : Channel} (h : i = 1 ∨ i = 2 ∨ i = 10) :
    ∃ ctx : Word, ¬ Claims.ctxIllegal ctx ∧ gate i ctx = false := by
  refine ⟨0, by decide, ?_⟩
  obtain rfl | rfl | rfl := h <;> rfl

/-- A TICK step skips a channel whose gate is false and decrements every other whose count is not zero. -/
theorem pair_of_exec_tick {s t : State} (i : Channel) (h : exec .tick s = .next t) :
    (gate i s.ctx = false → t.count[i] = s.count[i] ∧ t.trig[i] = s.trig[i]) ∧
    (gate i s.ctx = true → s.count[i] ≠ 0 → t.count[i] = s.count[i] - 1) := by
  cases (exec_tick s).symm.trans h
  rw [ticked_count, ticked_trig]
  refine ⟨fun hg => ?_, fun hg hne => ?_⟩
  · rw [hg]
    exact ⟨tickCount_closed _, tickTrig_closed _ _⟩
  · rw [tickCount_eq, if_pos ⟨hg, hne⟩]

/-- Settles O33: the gates from their formulas, the TICK step from its per-channel lemmas. -/
theorem gatesReadTheContextAsStated : Obligations.GatesReadTheContextAsStated := by
  refine ⟨fun ctx _ => ⟨?_, ?_, ?_⟩, fun i ctx h1 h2 h10 => gate_ungated h1 h2 h10 ctx,
    fun i => exists_legal_ctx_gate_false, fun s t i => pair_of_exec_tick i, ?_⟩
  · rw [gate_dualwatch, Bool.and_eq_true, modeLetsAlternate_iff]
    rfl
  · rw [gate_noaa, Bool.and_eq_true, modeLetsAlternate_iff]
    rfl
  · rw [gate_scanpause, Bool.and_eq_true, Bool.or_eq_true, modeLetsScan_iff]
    rfl
  · intro s t t' ctx' h h'
    cases h
    cases h'
    exact ⟨rfl, rfl, rfl⟩

end Sys2Proof.Proofs

/-! PROOFS. The decoder's outcomes over the bits of the word, and the response of every command (spec/30_encoding.md).
The premises of the statements are about the opcode byte and the fields of a word; each is turned once into the
opcode it names and the decoder's check it stands for. -/

namespace Sys2Proof.Proofs

open Sys2Proof.Machine Sys2Proof.Laws

/-! ### The opcode byte and the checks of the decoder, over the bits of the word -/

theorem opcodeByte_injective : Function.Injective opcodeByte := fun a b h =>
  Option.some.inj (((opcode?_eq_some_iff _ a).2 rfl).symm.trans ((opcode?_eq_some_iff _ b).2 h))

theorem exists_opcode {b : BitVec 8} (h : b.toNat ≤ 8) : ∃ op, b = opcodeByte op := by
  cases ho : opcode? b with
  | none =>
    have := (opcode?_eq_none_iff b).1 ho
    omega
  | some op => exact ⟨op, (opcode?_eq_some_iff b op).1 ho⟩

theorem mbzViolated_iff {w : CmdWord} {op : Opcode} (hop : Claims.op w = opcodeByte op) :
    Claims.mbzViolated w ↔ w &&& mbzMask (formatOf op) ≠ 0 := by
  rw [ne_eq, mbzMask_iff, Claims.mbzViolated, hop]
  cases op <;> simp [opcodeByte, formatOf]

theorem ctxIllegal_iff (v : Word) : Claims.ctxIllegal v ↔ legalCtx v = false := by
  rw [← Bool.not_eq_true, legalCtx_iff, Claims.ctxIllegal]
  simp only [not_and_or, Bool.not_eq_false, not_le, ne_eq]

theorem operandFault?_channel {op : Opcode} {id : IdField} (imm : Word)
    (hop : 1 ≤ (opcodeByte op).toNat ∧ (opcodeByte op).toNat ≤ 4) (hid : 20 ≤ id.toNat) :
    operandFault? op id imm = some .badId := by
  have hnone := (channel?_eq_none_iff id).2 hid
  cases op
  case arm | rdcnt | rdtrig | take => simp [operandFault?, formatOf, hnone]
  all_goals exact absurd hop (by decide)

theorem operandFault?_flag {op : Opcode} {id : IdField} (imm : Word)
    (hop : opcodeByte op = 5 ∨ opcodeByte op = 6) (hid : 2 ≤ id.toNat) :
    operandFault? op id imm = some .badId := by
  have hnone := (flag?_eq_none_iff id).2 hid
  obtain rfl | rfl := hop.imp (@opcodeByte_injective op .rdflag) (@opcodeByte_injective op .takef)
  all_goals simp [operandFault?, formatOf, hnone]

theorem operandFault?_setctx (id : IdField) {v : Word} (hv : Claims.ctxIllegal v) :
    operandFault? .setctx id v = some .badOperand := by
  simp [operandFault?, formatOf, (ctxIllegal_iff v).1 hv]

/-- With no id out of range and no illegal context value, no operand is at fault. -/
theorem operandFault?_none {op : Opcode} {id : IdField} {imm : Word}
    (hch : ¬ ((1 ≤ (opcodeByte op).toNat ∧ (opcodeByte op).toNat ≤ 4) ∧ 20 ≤ id.toNat))
    (hfl : ¬ ((opcodeByte op = 5 ∨ opcodeByte op = 6) ∧ 2 ≤ id.toNat))
    (hctx : ¬ (opcodeByte op = 7 ∧ Claims.ctxIllegal imm)) : operandFault? op id imm = none := by
  rw [← channel?_eq_none_iff] at hch
  rw [← flag?_eq_none_iff] at hfl
  rw [ctxIllegal_iff] at hctx
  cases op <;> simp_all [operandFault?, formatOf, opcodeByte, Option.isSome_iff_ne_none]

/-! ### Every legal command has its word -/

theorem encodeCarriesFields (i : Instr) : EncodeCarriesFields.Statement i := by
  cases i with
  | nop => exact EncodeCarriesFields.nop
  | arm ch v => exact EncodeCarriesFields.arm ch v
  | rdcnt ch => exact EncodeCarriesFields.rdcnt ch
  | rdtrig ch => exact EncodeCarriesFields.rdtrig ch
  | take ch => exact EncodeCarriesFields.take ch
  | rdflag f => exact EncodeCarriesFields.rdflag f
  | takef f => exact EncodeCarriesFields.takef f
  | setctx v => exact EncodeCarriesFields.setctx v
  | rdctx => exact EncodeCarriesFields.rdctx
  | tick => exact EncodeCarriesFields.tick

theorem exists_word_of_ne_tick {i : Instr} (h : i ≠ .tick) : ∃ w, encode i = .command w := by
  cases i with
  | tick => exact absurd rfl h
  | _ => exact ⟨_, rfl⟩

theorem decode_word_of_encode {i : Instr} {w : CmdWord} (hw : i.wf = true) (he : encode i = .command w) :
    decode (.command w) = .instr i := by
  obtain ⟨op, hop, hz, rfl⟩ := encodeCarriesFields i w he
  exact decode_instr hop hz ((operandFault?_eq_none_iff _ _ _).2 hw)

/-- Settles O7: each branch of the chain is one check of the decoder; words are unique and exist by the encoder. -/
theorem decoderOutcomesInFixedOrder : Obligations.DecoderOutcomesInFixedOrder := by
  refine ⟨fun w => ?_, fun w w' i h h' => ?_, fun i hw ht => ?_⟩
  · by_cases hres : 8 < (Claims.op w).toNat
    · rw [if_pos hres]
      exact decode_badOpcode hres
    rw [if_neg hres]
    obtain ⟨op, hop⟩ := exists_opcode (Nat.le_of_not_lt hres)
    by_cases hmbz : Claims.mbzViolated w
    · rw [if_pos hmbz]
      exact decode_mbz hop ((mbzViolated_iff hop).1 hmbz)
    have hz := not_not.1 (mt (mbzViolated_iff hop).2 hmbz)
    rw [if_neg hmbz]
    split_ifs with hch hfl hctx
    · exact decode_operandFault hop hz (operandFault?_channel _ (hop ▸ hch.1) hch.2)
    · exact decode_operandFault hop hz (operandFault?_flag _ (hop ▸ hfl.1) hfl.2)
    · cases opcodeByte_injective (hop.symm.trans hctx.1 : _ = opcodeByte .setctx)
      exact decode_operandFault hop hz (operandFault?_setctx _ hctx.2)
    · rw [hop] at hch hfl hctx
      have hinstr : ∀ op', Claims.op w = opcodeByte op' →
          decode (.command w) = .instr (instrOf op' (Claims.id w) (Claims.imm w)) := by
        intro op' hop'
        cases opcodeByte_injective (hop.symm.trans hop')
        exact decode_instr hop hz (operandFault?_none hch hfl hctx)
      exact ⟨hinstr .nop, hinstr .arm, hinstr .rdcnt, hinstr .rdtrig, hinstr .take, hinstr .rdflag,
        hinstr .takef, hinstr .setctx, hinstr .rdctx⟩
  · exact TraceStep.command.inj ((eq_encode_of_decode h).trans (eq_encode_of_decode h').symm)
  · obtain ⟨w, he⟩ := exists_word_of_ne_tick ht
    exact ⟨w, decode_word_of_encode hw he⟩

/-! ### Rejected words -/

theorem step_of_decode_rejected {s : State} {w : CmdWord} {rest : List Event} {st : Status}
    (hin : Claims.arrives s w rest) (hd : decode (.command w) = .rejected st) :
    step s = .next (Claims.rejected s rest st) :=
  (step_of_cons hin).trans (performStep_rejected hd _)

/-- Settles O10: the first check of the decoder rejects the word; only a pulse decodes to `TICK`. -/
theorem reservedOpcodeIsRejected : Obligations.ReservedOpcodeIsRejected :=
  ⟨fun _ _ _ hin hop => step_of_decode_rejected hin (decode_badOpcode hop), decode_command_ne_tick⟩

/-- Settles O11: the opcode names a format, whose must-be-zero check rejects the word. -/
theorem mustBeZeroBitRejectsCommand : Obligations.MustBeZeroBitRejectsCommand := by
  intro s w rest hin hle hmbz
  obtain ⟨op, hop⟩ := exists_opcode hle
  exact step_of_decode_rejected hin (decode_mbz hop ((mbzViolated_iff hop).1 hmbz))

theorem operandFault?_ne_ok (op : Opcode) (id : IdField) (imm : Word) : operandFault? op id imm ≠ some .ok := by
  cases hfmt : formatOf op <;> simp [operandFault?, hfmt]

theorem decode_command_ne_rejected_ok (w : CmdWord) : decode (.command w) ≠ .rejected .ok := by
  intro h
  obtain ⟨_, e⟩ | ⟨op, _, ⟨_, e⟩ | ⟨_, ⟨st, hf, e⟩ | ⟨_, e⟩⟩⟩ := decode_command_cases w
  all_goals cases h.symm.trans e
  exact operandFault?_ne_ok _ _ _ hf

/-! ### The response of a command -/

/-- The data of the OK response of a command, from the state before it (the table of spec/30_encoding.md R51). -/
def TableData (op : Opcode) (id : IdField) (s : State) (d : Word) : Prop :=
  match op with
  | .nop | .arm | .setctx => d = 0
  | .rdcnt => ∃ i : Channel, i.val = id.toNat ∧ d = s.count[i]
  | .rdtrig | .take => ∃ i : Channel, i.val = id.toNat ∧ d = Claims.bit s.trig[i]
  | .rdflag | .takef => ∃ f : Flag, f.val = id.toNat ∧ d = Claims.bit s.flag[f]
  | .rdctx => d = s.ctx

theorem exists_channel {id : IdField} (h : (channel? id).isSome = true) :
    ∃ i, channel? id = some i ∧ i.val = id.toNat := by
  obtain ⟨i, hi⟩ := Option.isSome_iff_exists.1 h
  exact ⟨i, hi, ((channel?_eq_some_iff id i).1 hi).symm⟩

theorem exists_flag {id : IdField} (h : (flag? id).isSome = true) :
    ∃ f, flag? id = some f ∧ f.val = id.toNat := by
  obtain ⟨f, hf⟩ := Option.isSome_iff_exists.1 h
  exact ⟨f, hf, ((flag?_eq_some_iff id f).1 hf).symm⟩

/-- A legal command gives one response, OK with the data of the table. -/
theorem exec_answers {op : Opcode} {id : IdField} {imm : Word} (hw : (instrOf op id imm).wf = true) (s : State) :
    ∃ t d, exec (instrOf op id imm) s = .next t ∧ t.responses = s.responses ++ [⟨.ok, d⟩] ∧
      TableData op id s d := by
  cases op with
  | nop | rdctx => exact ⟨_, _, rfl, rfl, rfl⟩
  | setctx => exact ⟨_, _, exec_setctx_legal hw s, rfl, rfl⟩
  | arm =>
    obtain ⟨i, hi, -⟩ := exists_channel hw
    exact ⟨_, _, exec_arm hi imm s, rfl, rfl⟩
  | rdcnt =>
    obtain ⟨i, hi, hv⟩ := exists_channel hw
    exact ⟨_, _, exec_rdcnt hi s, rfl, i, hv, rfl⟩
  | rdtrig =>
    obtain ⟨i, hi, hv⟩ := exists_channel hw
    exact ⟨_, _, exec_rdtrig hi s, rfl, i, hv, rfl⟩
  | take =>
    obtain ⟨i, hi, hv⟩ := exists_channel hw
    exact ⟨_, _, exec_take hi s, rfl, i, hv, rfl⟩
  | rdflag =>
    obtain ⟨f, hf, hv⟩ := exists_flag hw
    exact ⟨_, _, exec_rdflag hf s, rfl, f, hv, rfl⟩
  | takef =>
    obtain ⟨f, hf, hv⟩ := exists_flag hw
    exact ⟨_, _, exec_takef hf s, rfl, f, hv, rfl⟩

/-- A decoded command word carries its instruction's opcode and operands, which are legal. -/
theorem exists_instrOf_of_decode {w : CmdWord} {i : Instr} (h : decode (.command w) = .instr i) :
    ∃ op, Claims.op w = opcodeByte op ∧ i = instrOf op (Claims.id w) (Claims.imm w) := by
  obtain ⟨_, e⟩ | ⟨op, hop, ⟨_, e⟩ | ⟨_, ⟨_, _, e⟩ | ⟨_, e⟩⟩⟩ := decode_command_cases w
  all_goals cases h.symm.trans e
  exact ⟨op, hop, rfl⟩

/-- Settles O14: a rejected word is answered with data 0, a decoded one from the table. -/
theorem everyCommandIsAnsweredOnce : Obligations.EveryCommandIsAnsweredOnce := by
  intro s w rest hin
  cases hd : decode (.command w) with
  | rejected st =>
    refine ⟨_, ⟨st, 0⟩, step_of_decode_rejected hin hd, rfl, fun _ => rfl, ?_⟩
    rintro rfl
    exact absurd hd (decode_command_ne_rejected_ok w)
  | instr i =>
    obtain ⟨op, hop, rfl⟩ := exists_instrOf_of_decode hd
    obtain ⟨t, d, hexec, hresp, htable⟩ := exec_answers (wf_of_decode hd) { s with inputs := rest }
    have hdata : ∀ op', Claims.op w = opcodeByte op' → TableData op' (Claims.id w) s d := by
      intro op' hop'
      cases opcodeByte_injective (hop.symm.trans hop')
      exact htable
    have hstep := (step_of_cons hin).trans ((performStep_instr hd _).trans hexec)
    refine ⟨t, ⟨.ok, d⟩, hstep, hresp, absurd rfl, fun _ => ⟨?_, hdata .rdcnt, ?_, ?_, hdata .rdctx⟩⟩
    · rintro (e | e | e)
      exacts [hdata .nop e, hdata .arm e, hdata .setctx e]
    · rintro (e | e)
      exacts [hdata .rdtrig e, hdata .take e]
    · rintro (e | e)
      exacts [hdata .rdflag e, hdata .takef e]

/-! ### The responses of a run -/

/-- A step adds one response if the event it takes is a command, and none otherwise. -/
theorem responses_of_step {s u : State} (h : step s = .next u) :
    ∃ out, u.responses = s.responses ++ out ∧ out.length = (s.inputs.take 1).countP isCommand := by
  match hin : s.inputs with
  | [] =>
    cases (step_of_nil hin).symm.trans h
    exact ⟨[], by simp⟩
  | .reset :: rest =>
    cases (step_of_cons hin).symm.trans h
    exact ⟨[], by simp [isCommand]⟩
  | .step .tick :: rest =>
    cases (step_of_cons hin).symm.trans h
    exact ⟨[], by simp [isCommand]⟩
  | .step (.command w) :: rest =>
    obtain ⟨t, r, hstep, hresp, _⟩ := everyCommandIsAnsweredOnce s w rest hin
    cases hstep.symm.trans h
    exact ⟨[r], hresp, by simp [isCommand]⟩

/-- Settles O15, by induction on the number of steps. -/
theorem responsesComeInOrderOnePerCommand : Obligations.ResponsesComeInOrderOnePerCommand := by
  intro n s t h
  induction n generalizing s with
  | zero =>
    cases runsTo_zero.1 h
    exact ⟨rfl, [], by simp⟩
  | succ n ih =>
    obtain ⟨u, hstep, hrun⟩ := runsTo_succ.1 h
    obtain ⟨out₁, hresp₁, hlen₁⟩ := responses_of_step hstep
    obtain ⟨hin, out₂, hresp₂, hlen₂⟩ := ih u hrun
    rw [inputs_of_step hstep, ← List.drop_one] at hin hlen₂
    refine ⟨by rw [hin, List.drop_drop, Nat.add_comm], out₁ ++ out₂, ?_, ?_⟩
    · rw [hresp₂, hresp₁, List.append_assoc]
    · rw [List.length_append, hlen₁, hlen₂, ← List.countP_append, ← List.take_add, Nat.add_comm]

end Sys2Proof.Proofs

/-! PROOFS. The TICK step (spec/40_tick.md): what one step does to a count, a trigger and a divider, from the values
before it, and what follows along runs. A count rises only by a rearm, and the dividers count the TICK steps. -/

namespace Sys2Proof.Proofs

open Sys2Proof.Machine Sys2Proof.Laws

/-! ### One TICK -/

/-- Settles O29: the state after the TICK is `ticked`, piece by piece. -/
theorem tickCompletesWithoutResponse : Obligations.TickCompletesWithoutResponse := by
  intro s
  refine ⟨ticked s, exec_tick s, fun i => ?_, fun i => ?_, nextDiv4_toNat _, ?_, fun _ => nextDiv50_toNat _, ?_,
    rfl, rfl, rfl, ?_⟩
  · rw [ticked_count, tickCount_eq]
  · rw [ticked_trig, tickTrig_iff]
  · rw [ticked_f40, tickF40_iff, ticked_div4]
  · rw [ticked_f500, tickF500_iff, ticked_div50]
  · rintro s₀ rest hin rfl
    exact step_of_cons hin

/-- The subtraction never goes below 0, so it is that of the natural numbers. -/
theorem tickCount_toNat (g : Bool) (v : Word) : (tickCount g v).toNat = v.toNat - g.toNat := by
  cases g with
  | false => rw [tickCount_closed]; rfl
  | true => exact tickCount_open_toNat v

theorem ticked_count_toNat (s : State) (i : Channel) :
    (ticked s).count[i].toNat = s.count[i].toNat - (gate i s.ctx).toNat := by
  rw [ticked_count, tickCount_toNat]

/-- An instruction that is no TICK leaves a count, or is the `ARM` that sets it to its operand. -/
theorem count_of_effect {s t : State} {ins : Instr} (i : Channel) (hins : ins ≠ .tick) (he : Effect s ins t) :
    t.count[i] = s.count[i] ∨ ∃ v, ins = .arm (Claims.chId i) v ∧ t.count[i] = v := by
  cases he with
  | silent | taken | flagTaken | ctxSet => exact .inl rfl
  | armed ch k v hk =>
    have e := writeCount_getElem k i v s
    by_cases hik : i = k
    · subst hik
      exact .inr ⟨v, by rw [eq_chId_of_channel? hk], e.trans (if_pos rfl)⟩
    · exact .inl (e.trans (if_neg hik))
  | ticked => exact absurd rfl hins

/-- Settles O30: the TICK subtracts the gate as a number; the other instructions are the other effects. -/
theorem decrementIsExact : Obligations.DecrementIsExact := by
  refine ⟨fun s t h i => ?_, fun ins s t i hins h => count_of_effect i hins (effect_of_exec h)⟩
  cases (exec_tick s).symm.trans h
  have hcount := ticked_count_toNat s i
  refine ⟨fun _ hzero => ?_, fun hg hpos => ?_, fun hg => ?_⟩
  · rw [hcount, hzero, Nat.zero_sub]
  · rw [hcount, hg]
    exact Nat.sub_add_cancel hpos
  · rw [ticked_count, hg, tickCount_closed]

/-- A count of 1 is brought to 0 exactly where the gate is open. -/
theorem tickCount_one_eq_zero_iff (g : Bool) : tickCount g 1 = 0 ↔ g = true := by
  cases g <;> decide

/-- The trigger after a TICK: pending before it, or set by the expiry. -/
theorem ticked_trig_iff (s : State) (i : Channel) : (ticked s).trig[i] = true ↔
    s.trig[i] = true ∨ (s.count[i] = 1 ∧ (ticked s).count[i] = 0) := by
  rw [ticked_trig, tickTrig_iff, ticked_count, and_comm]
  refine or_congr_right (and_congr_right fun hone => ?_)
  rw [hone, tickCount_one_eq_zero_iff]

/-- Settles O31: a trigger bit is true after the TICK exactly when it was pending or the count expired. -/
theorem triggerSetExactlyOnExpiry : Obligations.TriggerSetExactlyOnExpiry := by
  intro s t h i
  cases (exec_tick s).symm.trans h
  have htrig := ticked_trig_iff s i
  refine ⟨fun hone hzero => htrig.2 (.inr ⟨hone, hzero⟩), fun hno => ?_, fun hset => htrig.2 (.inl hset)⟩
  rw [Bool.eq_iff_iff, htrig, or_iff_left hno]

/-- A TICK reads no more than the counts and `CTX` for the counts after it. -/
theorem ticked_count_congr {s s' : State} (hcount : s.count = s'.count) (hctx : s.ctx = s'.ctx) :
    (ticked s).count = (ticked s').count := by
  refine Vector.ext fun i hi => ?_
  have e := ticked_count s ⟨i, hi⟩
  rw [hcount, hctx, ← ticked_count] at e
  exact e

/-- Settles O32: the TICK only ever sets bits, by an expiry or at a boundary, and neither reads a pending bit. -/
theorem tickNeverClearsReloadsOrReadsPendingBits : Obligations.TickNeverClearsReloadsOrReadsPendingBits := by
  refine ⟨fun s t h => ?_, fun s s' t t' hcount hctx hdiv4 hdiv50 h h' => ?_⟩
  · cases (exec_tick s).symm.trans h
    refine ⟨rfl, fun i hset => (ticked_trig_iff s i).2 (.inl hset), fun f hset => (ticked_flag_iff f s).2 (.inl hset),
      fun i => ?_, fun i hzero => ?_⟩
    · rw [ticked_count_toNat]
      exact Nat.sub_le _ _
    · rw [ticked_count, tickCount_eq, if_neg (fun hc => hc.2 hzero), hzero]
  · cases (exec_tick s).symm.trans h
    cases (exec_tick s').symm.trans h'
    have hcounts := ticked_count_congr hcount hctx
    have hdivs4 : (ticked s).div4 = (ticked s').div4 := congrArg nextDiv4 hdiv4
    have hdivs50 : (ticked s).div50 = (ticked s').div50 := congrArg nextDiv50 hdiv50
    refine ⟨hcounts, hdivs4, hdivs50, fun i hclear hset => ?_, fun f hclear hset => ?_⟩
    · obtain hset | hexpiry := (ticked_trig_iff s i).1 hset
      · simp [hclear] at hset
      · rw [hcount, hcounts] at hexpiry
        exact (ticked_trig_iff s' i).2 (.inr hexpiry)
    · obtain hset | hboundary := (ticked_flag_iff f s).1 hset
      · simp [hclear] at hset
      · rw [hdivs4, hdivs50] at hboundary
        exact (ticked_flag_iff f s').2 (.inr hboundary)

/-! ### Along runs -/

/-- A property that every step keeps whose event, if there is one, is allowed holds after every run of allowed
events. -/
theorem inv_of_runsTo {P : State → Prop} {ok : Event → Prop}
    (hkeeps : ∀ s t, (∀ e ∈ s.inputs.head?, ok e) → step s = .next t → P s → P t) {n : Nat} {s t : State}
    (hok : ∀ e ∈ s.inputs.take n, ok e) (h : RunsTo n s t) (hs : P s) : P t := by
  induction n generalizing s with
  | zero =>
    rw [runsTo_zero.1 h]
    exact hs
  | succ n ih =>
    obtain ⟨u, hstep, hrun⟩ := runsTo_succ.1 h
    have hhead : ∀ e ∈ s.inputs.head?, ok e := fun e he => hok e (by
      rw [List.eq_cons_of_mem_head? he]
      exact List.mem_cons_self)
    refine ih (fun e he => hok e ?_) hrun (hkeeps s u hhead hstep hs)
    rw [inputs_of_step hstep, ← List.drop_one] at he
    rw [Nat.add_comm, List.take_add]
    exact List.mem_append_right _ he

/-- A rearm is an `ARM` of the channel. -/
theorem rearmsChannel_of_not_arms {i : Channel} {e : Event} (h : armsChannel i e = false) :
    rearmsChannel i e = false := by
  cases e with
  | reset => rfl
  | step x =>
    cases hd : decode x with
    | rejected st => simp [rearmsChannel, hd]
    | instr ins =>
      cases ins with
      | arm ch v =>
        have hne : channel? ch ≠ some i := by simpa [armsChannel, hd] using h
        simp [rearmsChannel, hd, hne]
      | nop | rdcnt | rdtrig | take | rdflag | takef | setctx | rdctx | tick => simp [rearmsChannel, hd]

/-- Only a rearm raises a count. -/
theorem count_le_of_step {s t : State} (i : Channel) (hev : ∀ e ∈ s.inputs.head?, rearmsChannel i e = false)
    (h : step s = .next t) : t.count[i].toNat ≤ s.count[i].toNat := by
  cases pairStep_of_step i h with
  | idle _ hc | take _ _ _ _ _ _ hc | other _ _ _ _ _ _ hc => rw [hc]
  | reset _ _ hc =>
    rw [hc]
    exact Nat.zero_le _
  | tick _ _ hc =>
    rw [hc, tickCount_toNat]
    exact Nat.sub_le _ _
  | arm rest x ch v hin hd hch hc =>
    have hzero : v = 0 := by simpa [rearmsChannel, hd, hch] using hev (.step x) (by simp [hin])
    rw [hc, hzero]
    exact Nat.zero_le _

theorem count_le_of_runsTo {n : Nat} {s t : State} (i : Channel)
    (hev : ∀ e ∈ s.inputs.take n, rearmsChannel i e = false) (h : RunsTo n s t) :
    t.count[i].toNat ≤ s.count[i].toNat :=
  inv_of_runsTo (P := fun x => x.count[i].toNat ≤ s.count[i].toNat)
    (fun _ _ hev hstep hle => (count_le_of_step i hev hstep).trans hle) hev h le_rfl

/-- Settles O42: a TICK subtracts 0 or 1, and an event that is no `ARM` of the channel is no rearm. -/
theorem countNeverRisesWithoutArm : Obligations.CountNeverRisesWithoutArm := by
  refine ⟨fun s t i h => ?_, fun n s t i hev h =>
    count_le_of_runsTo i (fun e he => rearmsChannel_of_not_arms (hev e he)) h⟩
  cases (exec_tick s).symm.trans h
  have hcount := ticked_count_toNat s i
  have hgate := (gate i s.ctx).toNat_le
  omega

theorem nextIsTick_iff (s : State) : nextIsTick s = true ↔ ∃ rest, s.inputs = .step .tick :: rest := by
  refine ⟨fun h => ⟨s.inputs.tail, List.eq_cons_of_mem_head? ?_⟩, fun ⟨_, hin⟩ => nextIsTick_of_cons hin⟩
  exact beq_iff_eq.1 h

theorem step_of_tick {s : State} {rest : List Event} (h : s.inputs = .step .tick :: rest) :
    step s = .next (ticked { s with inputs := rest }) := step_of_cons h

/-- The setting act of spec/40_tick.md R66, taken apart. -/
theorem setsTrigger_iff (i : Channel) (s : State) : setsTrigger i s = true ↔
    (∃ rest, s.inputs = .step .tick :: rest) ∧ gate i s.ctx = true ∧ s.count[i] = 1 := by
  simp only [setsTrigger, nextIsEnabledTick, Bool.and_eq_true, beq_iff_eq, nextIsTick_iff, and_assoc]

theorem count_of_setsTrigger {s t : State} {i : Channel} (hset : setsTrigger i s = true) (h : step s = .next t) :
    t.count[i] = 0 := by
  obtain ⟨⟨rest, hin⟩, hgate, hone⟩ := (setsTrigger_iff i s).1 hset
  cases (step_of_tick hin).symm.trans h
  rw [ticked_count, hone, hgate]
  rfl

/-- Settles O43: the first setting leaves the count at 0, and without a rearm it is not 1 at the second. -/
theorem triggerIsOneShot : Obligations.TriggerIsOneShot := by
  intro n s t u i hset hstep hrun hset'
  by_contra hno
  have hev : ∀ e ∈ t.inputs.take n, rearmsChannel i e = false := by simpa using hno
  have hle := count_le_of_runsTo i hev hrun
  obtain ⟨_, _, hone⟩ := (setsTrigger_iff i u).1 hset'
  rw [count_of_setsTrigger hset hstep, hone] at hle
  exact absurd hle (by decide)

/-! ### The dividers count the TICK steps -/

/-- Everything one step can do to the dividers (spec/10_state.md R20). -/
theorem dividers_of_step {s t : State} (h : step s = .next t) :
    (∃ rest, s.inputs = .reset :: rest ∧ t.div4 = 0 ∧ t.div50 = 0) ∨
    (nextIsTick s = true ∧ t.div4 = nextDiv4 s.div4 ∧ t.div50 = nextDiv50 s.div50) ∨
    (nextIsTick s = false ∧ t.div4 = s.div4 ∧ t.div50 = s.div50) := by
  obtain ⟨hin, rfl⟩ | ⟨rest, hin, rfl⟩ | ⟨x, rest, st, hin, hd, rfl⟩ | ⟨x, rest, ins, hin, hd, he⟩ := step_cases h
  · exact .inr (.inr ⟨by simp [nextIsTick, hin], rfl, rfl⟩)
  · exact .inl ⟨rest, hin, rfl, rfl⟩
  · have hx : x ≠ .tick := by rintro rfl; cases hd
    exact .inr (.inr ⟨by simp [nextIsTick, hin, hx], rfl, rfl⟩)
  · by_cases hx : x = .tick
    · subst hx
      cases hd
      cases he with
      | silent _ r hr => simp [readsOnly, Instr.wf] at hr
      | ticked => exact .inr (.inl ⟨nextIsTick_of_cons hin, rfl, rfl⟩)
    · refine .inr (.inr ⟨by simp [nextIsTick, hin, hx], ?_⟩)
      cases he with
      | silent | armed | taken | flagTaken | ctxSet => exact ⟨rfl, rfl⟩
      | ticked => exact absurd (eq_tick_of_decode hd) hx

/-- A phase below `m` that every step but a reset moves on by one modulo `m` at a TICK, and keeps otherwise, counts
the TICK steps of a run without reset modulo `m`. -/
theorem phase_of_runsTo {phase : State → Nat} {m : Nat}
    (hphase : ∀ s t, .reset ∉ s.inputs → step s = .next t →
      phase t = if nextIsTick s = true then (phase s + 1) % m else phase s)
    {n : Nat} {s t : State} (hno : .reset ∉ s.inputs) (h : RunsTo n s t) (hlt : phase s < m) :
    phase t = (phase s + ticks n s) % m := by
  induction n generalizing s with
  | zero =>
    cases runsTo_zero.1 h
    exact (Nat.mod_eq_of_lt hlt).symm
  | succ n ih =>
    obtain ⟨u, hstep, hrun⟩ := runsTo_succ.1 h
    have hno' : .reset ∉ u.inputs := fun hmem => hno (List.mem_of_mem_tail (inputs_of_step hstep ▸ hmem))
    have hu := hphase s u hno hstep
    have hticks : ticks (n + 1) s = (if nextIsTick s then 1 else 0) + ticks n u := stepsFrom_succ_of_step hstep
    cases htick : nextIsTick s with
    | true =>
      rw [if_pos htick] at hu hticks
      rw [ih hno' hrun (hu ▸ Nat.mod_lt _ (Nat.zero_lt_of_lt hlt)), hu, hticks, Nat.mod_add_mod, Nat.add_assoc]
    | false =>
      rw [if_neg (by simp [htick])] at hu hticks
      rw [ih hno' hrun (hu ▸ hlt), hu, hticks, Nat.zero_add]

theorem div4_of_runsTo {n : Nat} {s t : State} (hno : .reset ∉ s.inputs) (h : RunsTo n s t) :
    t.div4.toNat = (s.div4.toNat + ticks n s) % 4 := by
  refine phase_of_runsTo (phase := fun s => s.div4.toNat) (fun s u hno hstep => ?_) hno h s.div4.isLt
  obtain ⟨rest, hin, _⟩ | ⟨htick, h4, _⟩ | ⟨htick, h4, _⟩ := dividers_of_step hstep
  · simp [hin] at hno
  · rw [if_pos htick, h4, nextDiv4_toNat]
  · rw [if_neg (by simp [htick]), h4]

theorem div50_of_runsTo {n : Nat} {s t : State} (hno : .reset ∉ s.inputs) (h : RunsTo n s t)
    (hlt : s.div50.toNat < 50) : t.div50.toNat = (s.div50.toNat + ticks n s) % 50 := by
  refine phase_of_runsTo (phase := fun s => s.div50.toNat) (fun s u hno hstep => ?_) hno h hlt
  obtain ⟨rest, hin, _⟩ | ⟨htick, _, h50⟩ | ⟨htick, _, h50⟩ := dividers_of_step hstep
  · simp [hin] at hno
  · rw [if_pos htick, h50, nextDiv50_toNat]
  · rw [if_neg (by simp [htick]), h50]

/-- Settles O45: the phases of the run from reset, then the TICK of O29 from its last state. -/
theorem coarseFlagsSetAtMultiplesSinceReset : Obligations.CoarseFlagsSetAtMultiplesSinceReset := by
  intro n events t hno hrun htick
  obtain ⟨rest, hin⟩ := (nextIsTick_iff t).1 htick
  obtain ⟨u, _, _, _, hu4, hf40, hu50, hf500, _, _, _, hstep⟩ := tickCompletesWithoutResponse { t with inputs := rest }
  have ht4 : t.div4.toNat = ticks n { State.reset with inputs := events } % 4 :=
    (div4_of_runsTo hno hrun).trans (congrArg (· % 4) (Nat.zero_add _))
  have ht50 : t.div50.toNat = ticks n { State.reset with inputs := events } % 50 :=
    (div50_of_runsTo hno hrun (Nat.succ_pos 49)).trans (congrArg (· % 50) (Nat.zero_add _))
  replace hu50 := hu50 (show t.div50.toNat ≤ 49 by omega)
  refine ⟨u, hstep t rest hin rfl, ht4, hu4, ht50, hu50, ?_, ?_⟩
  · rw [hf40, ← BitVec.toNat_inj, hu4, ht4, Nat.mod_add_mod]
    rfl
  · rw [hf500, ← BitVec.toNat_inj, hu50, ht50, Nat.mod_add_mod]
    rfl

end Sys2Proof.Proofs

/-! PROOFS. The countdown commands (spec/41_countdown_commands.md). A word with a channel opcode meets the checks of the
decoder in their order and is else its instruction; an event that presents an instruction runs it. A run after a cancel
keeps the count at 0, where no TICK sets the trigger, and a run after an `ARM` keeps a pending trigger. -/

namespace Sys2Proof.Proofs

open Sys2Proof.Machine Sys2Proof.Laws

/-! ### A command on a channel, as a word -/

theorem step_of_decode_instr {s : State} {x : TraceStep} {rest : List Event} {ins : Instr}
    (hin : s.inputs = .step x :: rest) (hd : decode x = .instr ins) :
    step s = exec ins { s with inputs := rest } :=
  (step_of_cons hin).trans (performStep_instr hd _)

/-- What becomes of a word whose opcode takes a channel: `mbzZero` says that the must-be-zero bits of its format are
zero (spec/30_encoding.md R58). -/
theorem step_of_channel_word {s : State} {w : CmdWord} {rest : List Event} {op : Opcode} {mbzZero : Prop}
    (hin : Claims.arrives s w rest) (hop : Claims.op w = opcodeByte op)
    (hch : 1 ≤ (opcodeByte op).toNat ∧ (opcodeByte op).toNat ≤ 4)
    (hmbz : w &&& mbzMask (formatOf op) = 0 ↔ mbzZero) :
    (¬ mbzZero → step s = .next (Claims.rejected s rest .badOperand)) ∧
    (mbzZero → 20 ≤ (Claims.id w).toNat → step s = .next (Claims.rejected s rest .badId)) ∧
    (∀ i : Channel, mbzZero → (Claims.id w).toNat = i.val → channel? (Claims.id w) = some i ∧
      step s = exec (instrOf op (Claims.id w) (Claims.imm w)) { s with inputs := rest }) := by
  refine ⟨fun hno => ?_, fun hz hid => ?_, fun i hz hid => ?_⟩
  · exact step_of_decode_rejected hin (decode_mbz hop (mt hmbz.1 hno))
  · exact step_of_decode_rejected hin (decode_operandFault hop (hmbz.2 hz) (operandFault?_channel _ hch hid))
  · have hsome := (channel?_eq_some_iff _ _).2 hid
    have hfault : operandFault? op (Claims.id w) (Claims.imm w) = none := by
      cases op
      case arm | rdcnt | rdtrig | take => simp [operandFault?, formatOf, hsome]
      all_goals exact absurd hch (by decide)
    exact ⟨hsome, step_of_decode_instr hin (decode_instr hop (hmbz.2 hz) hfault)⟩

/-- Settles O18: the checks of a word of format CI, then the write of one count. -/
theorem armWord : Obligations.ArmWord := by
  intro s w rest hin hop
  obtain ⟨hmbz, hid, hexec⟩ := step_of_channel_word (op := .arm) hin hop (by decide) (mbzMask_iff .ci w)
  refine ⟨hmbz, hid, fun i hz hi => ?_⟩
  obtain ⟨hch, hstep⟩ := hexec i hz hi
  exact ⟨(writeCount i (Claims.imm w) s).count, fun j => writeCount_getElem i j _ s, hstep.trans (exec_arm hch _ _)⟩

/-- Settles O19: the checks of a word of format C, then the answer. -/
theorem rdcntWord : Obligations.RdcntWord := by
  intro s w rest hin hop
  obtain ⟨hmbz, hid, hexec⟩ := step_of_channel_word (op := .rdcnt) hin hop (by decide) (mbzMask_iff .c w)
  refine ⟨hmbz, hid, fun i hz hi => ?_⟩
  obtain ⟨hch, hstep⟩ := hexec i hz hi
  exact hstep.trans (exec_rdcnt hch _)

/-! ### An instruction presented as its event -/

theorem decode_encode {ins : Instr} (hw : ins.wf = true) : decode (encode ins) = .instr ins := by
  by_cases ht : ins = .tick
  · rw [ht]
    rfl
  · obtain ⟨w, he⟩ := exists_word_of_ne_tick ht
    rw [he]
    exact decode_word_of_encode hw he

theorem decode_encode_arm (i : Channel) (v : Word) :
    decode (encode (.arm (Claims.chId i) v)) = .instr (.arm (Claims.chId i) v) :=
  decode_encode (by simp [Instr.wf])

theorem decode_encode_take (i : Channel) :
    decode (encode (.take (Claims.chId i))) = .instr (.take (Claims.chId i)) :=
  decode_encode (by simp [Instr.wf])

theorem step_of_ev_arm {s : State} {rest : List Event} {i : Channel} {v : Word}
    (hin : s.inputs = Claims.ev (.arm (Claims.chId i) v) :: rest) :
    step s = .next (emit ⟨.ok, 0⟩ (writeCount i v { s with inputs := rest })) :=
  (step_of_decode_instr hin (decode_encode_arm i v)).trans (exec_arm (channel?_ofNat i) v _)

theorem step_of_ev_take {s : State} {rest : List Event} {i : Channel}
    (hin : s.inputs = Claims.ev (.take (Claims.chId i)) :: rest) :
    step s = .next (emit ⟨.ok, zextBit s.trig[i]⟩ (clearTrig i { s with inputs := rest })) :=
  (step_of_decode_instr hin (decode_encode_take i)).trans (exec_take (channel?_ofNat i) _)

theorem takesTrigger_ev_arm (i j : Channel) (v : Word) :
    takesTrigger i (Claims.ev (.arm (Claims.chId j) v)) = false := by
  simp [takesTrigger, decode_encode_arm]

theorem takesTrigger_ev_take (i : Channel) : takesTrigger i (Claims.ev (.take (Claims.chId i))) = true := by
  simp [takesTrigger, decode_encode_take]

/-! ### Cancel -/

/-- A count of 0 stays 0 until a rearm. -/
theorem count_zero_of_step {s t : State} (i : Channel) (hev : ∀ e ∈ s.inputs.head?, rearmsChannel i e = false)
    (h : step s = .next t) (hzero : s.count[i] = 0) : t.count[i] = 0 := by
  have hle := count_le_of_step i hev h
  rw [hzero] at hle
  exact BitVec.eq_of_toNat_eq (Nat.le_zero.1 hle)

/-- With its count at 0 the channel cannot expire, so no step sets its trigger. -/
theorem trig_of_step_of_count_zero {s t : State} {i : Channel} (h : step s = .next t) (hzero : s.count[i] = 0)
    (hset : t.trig[i] = true) : s.trig[i] = true := by
  by_contra hclear
  obtain ⟨_, hone, _⟩ :=
    (triggerSetOnlyByExpiryClearedOnlyByTake s t i h).1 (Bool.eq_false_of_not_eq_true hclear) hset
  rw [hzero] at hone
  exact absurd hone (by decide)

/-- From an idle channel, a run without a rearm keeps it idle and sets no trigger. -/
theorem idle_of_runsTo {n : Nat} {s t : State} {i : Channel} (hev : ∀ e ∈ s.inputs.take n, rearmsChannel i e = false)
    (h : RunsTo n s t) (hzero : s.count[i] = 0) : t.count[i] = 0 ∧ (t.trig[i] = true → s.trig[i] = true) :=
  inv_of_runsTo (P := fun x => x.count[i] = 0 ∧ (x.trig[i] = true → s.trig[i] = true))
    (fun _ _ hev hstep ⟨hcount, htrig⟩ => ⟨count_zero_of_step i hev hstep hcount,
      fun hset => htrig (trig_of_step_of_count_zero hstep hcount hset)⟩) hev h ⟨hzero, id⟩

/-- Writing a count back changes nothing. -/
theorem writeCount_self {s : State} {i : Channel} {v : Word} (h : s.count[i] = v) : writeCount i v s = s := by
  subst h
  simp [writeCount]

/-- Settles O47: the cancel leaves the channel idle, and an idle channel stays so; on one already idle it writes the
count that is there. -/
theorem cancelSuppressesTheTrigger : Obligations.CancelSuppressesTheTrigger := by
  intro n s t i rest hin
  have hcancel := step_of_ev_arm hin
  refine ⟨fun hev hrun => ?_, fun hidle => ?_⟩
  · obtain ⟨u, hu, hrun⟩ := runsTo_succ.1 hrun
    cases hcancel.symm.trans hu
    exact (idle_of_runsTo hev hrun ((writeCount_getElem i i 0 _).trans (if_pos rfl)) :)
  · rw [hcancel, writeCount_self (s := { s with inputs := rest }) hidle]
    rfl

/-! ### A pending trigger -/

/-- Only a `TAKE` of the channel or a reset clears its trigger. -/
theorem pending_of_step {s t : State} {i : Channel}
    (hev : ∀ e ∈ s.inputs.head?, takesTrigger i e = false ∧ e ≠ .reset) (h : step s = .next t)
    (hset : s.trig[i] = true) : t.trig[i] = true := by
  by_contra hclear
  obtain ⟨rest, hin | hin⟩ :=
    (triggerSetOnlyByExpiryClearedOnlyByTake s t i h).2 hset (Bool.eq_false_of_not_eq_true hclear)
  all_goals obtain ⟨htake, hreset⟩ := hev _ (by rw [hin]; rfl)
  · cases htake.symm.trans (takesTrigger_ev_take i)
  · exact hreset rfl

theorem pending_of_runsTo {n : Nat} {s t : State} {i : Channel}
    (hev : ∀ e ∈ s.inputs.take n, takesTrigger i e = false ∧ e ≠ .reset) (h : RunsTo n s t)
    (hset : s.trig[i] = true) : t.trig[i] = true :=
  inv_of_runsTo (P := fun x => x.trig[i] = true) (fun _ _ hev hstep => pending_of_step hev hstep) hev h hset

theorem inputs_of_runsTo {n : Nat} {s t : State} (h : RunsTo n s t) : t.inputs = s.inputs.drop n :=
  (responsesComeInOrderOnePerCommand n s t h).1

/-- Settles O48: the `ARM` and the events after it keep the trigger pending, up to the `TAKE` that delivers it. -/
theorem armKeepsAPendingTrigger : Obligations.ArmKeepsAPendingTrigger := by
  refine ⟨fun s t i v h => ?_, fun s t i v between hset hbetween hin hrun => ?_⟩
  · cases (exec_arm (channel?_ofNat i) v s).symm.trans h
    rfl
  · obtain ⟨u, hrun, hlast⟩ := (runsTo_add (m := between.length + 1) (n := 1)).1 hrun
    obtain ⟨t', hstep, ht⟩ := runsTo_succ.1 hlast
    cases runsTo_zero.1 ht
    have hev : ∀ e ∈ s.inputs.take (between.length + 1), takesTrigger i e = false ∧ e ≠ .reset := by
      simpa [hin, takesTrigger_ev_arm] using hbetween
    have hpending : u.trig[i] = true := pending_of_runsTo hev hrun hset
    have hnext : u.inputs = [Claims.ev (.take (Claims.chId i))] := by
      rw [inputs_of_runsTo hrun, hin]
      simp
    cases (step_of_ev_take hnext).symm.trans hstep
    refine ⟨?_, (clearTrig_getElem i i _).trans (if_pos rfl)⟩
    rw [hpending, emit_responses, List.getLast?_concat]
    rfl

end Sys2Proof.Proofs

/-! PROOFS. The trigger and flag commands (spec/42_trigger_commands.md). A word of theirs meets the checks of the decoder
in their order and is else its instruction; a reading command answers the bit, a taking command clears that bit too. -/

namespace Sys2Proof.Proofs

open Sys2Proof.Machine Sys2Proof.Laws

/-! ### A command on a channel's trigger, as a word -/

/-- Settles O20: the checks of a word of format C, then the answer. -/
theorem rdtrigWord : Obligations.RdtrigWord := by
  intro s w rest hin hop
  obtain ⟨hmbz, hid, hexec⟩ := step_of_channel_word (op := .rdtrig) hin hop (by decide) (mbzMask_iff .c w)
  refine ⟨hmbz, hid, fun i hz hi => ?_⟩
  obtain ⟨hch, hstep⟩ := hexec i hz hi
  exact hstep.trans (exec_rdtrig hch _)

/-- Settles O21: the checks of a word of format C, then the answer and the clearing of one trigger. -/
theorem takeWord : Obligations.TakeWord := by
  intro s w rest hin hop
  obtain ⟨hmbz, hid, hexec⟩ := step_of_channel_word (op := .take) hin hop (by decide) (mbzMask_iff .c w)
  refine ⟨hmbz, hid, fun i hz hi => ?_⟩
  obtain ⟨hch, hstep⟩ := hexec i hz hi
  exact ⟨(clearTrig i s).trig, fun j => clearTrig_getElem i j s, hstep.trans (exec_take hch _)⟩

/-! ### A command on a coarse flag, as a word -/

/-- What becomes of a word whose opcode takes a flag (spec/30_encoding.md R58). -/
theorem step_of_flag_word {s : State} {w : CmdWord} {rest : List Event} {op : Opcode}
    (hin : Claims.arrives s w rest) (hop : Claims.op w = opcodeByte op) (hfl : op = .rdflag ∨ op = .takef) :
    (w.extractLsb' 0 48 ≠ 0 → step s = .next (Claims.rejected s rest .badOperand)) ∧
    (w.extractLsb' 0 48 = 0 → 2 ≤ (Claims.id w).toNat → step s = .next (Claims.rejected s rest .badId)) ∧
    (∀ f : Flag, w.extractLsb' 0 48 = 0 → (Claims.id w).toNat = f.val → flag? (Claims.id w) = some f ∧
      step s = exec (instrOf op (Claims.id w) (Claims.imm w)) { s with inputs := rest }) := by
  have hfmt : formatOf op = .f := by obtain rfl | rfl := hfl <;> rfl
  have hmbz : w &&& mbzMask (formatOf op) = 0 ↔ w.extractLsb' 0 48 = 0 := hfmt ▸ mbzMask_iff .f w
  refine ⟨fun hno => ?_, fun hz hid => ?_, fun f hz hid => ?_⟩
  · exact step_of_decode_rejected hin (decode_mbz hop (mt hmbz.1 hno))
  · have hbyte := hfl.imp (congrArg opcodeByte) (congrArg opcodeByte)
    exact step_of_decode_rejected hin (decode_operandFault hop (hmbz.2 hz) (operandFault?_flag _ hbyte hid))
  · have hsome := (flag?_eq_some_iff _ _).2 hid
    have hfault : operandFault? op (Claims.id w) (Claims.imm w) = none := by simp [operandFault?, hfmt, hsome]
    exact ⟨hsome, step_of_decode_instr hin (decode_instr hop (hmbz.2 hz) hfault)⟩

/-- Settles O22: the checks of a word of format F, then the answer. -/
theorem rdflagWord : Obligations.RdflagWord := by
  intro s w rest hin hop
  obtain ⟨hmbz, hid, hexec⟩ := step_of_flag_word (op := .rdflag) hin hop (.inl rfl)
  refine ⟨hmbz, hid, fun f hz hf => ?_⟩
  obtain ⟨hflag, hstep⟩ := hexec f hz hf
  exact hstep.trans (exec_rdflag hflag _)

/-- Settles O23: the checks of a word of format F, then the answer and the clearing of one flag. -/
theorem takefWord : Obligations.TakefWord := by
  intro s w rest hin hop
  obtain ⟨hmbz, hid, hexec⟩ := step_of_flag_word (op := .takef) hin hop (.inr rfl)
  refine ⟨hmbz, hid, fun f hz hf => ?_⟩
  obtain ⟨hflag, hstep⟩ := hexec f hz hf
  exact ⟨(clearFlag f s).flag, fun k => clearFlag_getElem f k s, hstep.trans (exec_takef hflag _)⟩

end Sys2Proof.Proofs

/-! PROOFS. The context commands (spec/43_context_commands.md). A word of format Z meets the must-be-zero check alone, a
`SETCTX` word also the check of its context value; a word that passes is its instruction. -/

namespace Sys2Proof.Proofs

open Sys2Proof.Machine Sys2Proof.Laws

/-- What becomes of a word whose opcode takes no operand (spec/30_encoding.md R58). -/
theorem step_of_operandless_word {s : State} {w : CmdWord} {rest : List Event} {op : Opcode}
    (hin : Claims.arrives s w rest) (hop : Claims.op w = opcodeByte op) (hfmt : formatOf op = .z) :
    (w.extractLsb' 0 56 ≠ 0 → step s = .next (Claims.rejected s rest .badOperand)) ∧
    (w.extractLsb' 0 56 = 0 →
      step s = exec (instrOf op (Claims.id w) (Claims.imm w)) { s with inputs := rest }) := by
  have hmbz : w &&& mbzMask (formatOf op) = 0 ↔ w.extractLsb' 0 56 = 0 := hfmt ▸ mbzMask_iff .z w
  refine ⟨fun hno => ?_, fun hz => ?_⟩
  · exact step_of_decode_rejected hin (decode_mbz hop (mt hmbz.1 hno))
  · have hfault : operandFault? op (Claims.id w) (Claims.imm w) = none := by simp [operandFault?, hfmt]
    exact step_of_decode_instr hin (decode_instr hop (hmbz.2 hz) hfault)

theorem exec_nop (s : State) : exec .nop s = .next (emit ⟨.ok, 0⟩ s) := rfl

theorem exec_rdctx (s : State) : exec .rdctx s = .next (emit ⟨.ok, s.ctx⟩ s) := rfl

/-- Settles O17: the must-be-zero check of format Z, then the answer 0. -/
theorem nopWord : Obligations.NopWord := by
  intro s w rest hin hop
  obtain ⟨hmbz, hexec⟩ := step_of_operandless_word (op := .nop) hin hop rfl
  exact ⟨hmbz, fun hz => (hexec hz).trans (exec_nop _)⟩

/-- Settles O24: the must-be-zero check of format I, the check of the value, then the write of `CTX`. -/
theorem setctxWord : Obligations.SetctxWord := by
  intro s w rest hin hop
  have hop' : Claims.op w = opcodeByte .setctx := hop
  have hmbz : w &&& mbzMask (formatOf .setctx) = 0 ↔ w.extractLsb' 32 24 = 0 := mbzMask_iff .i w
  refine ⟨fun hno => ?_, fun hz hillegal => ?_, fun hz hlegal => ?_⟩
  · exact step_of_decode_rejected hin (decode_mbz hop' (mt hmbz.1 hno))
  · exact step_of_decode_rejected hin (decode_operandFault hop' (hmbz.2 hz) (operandFault?_setctx _ hillegal))
  · have hctx : legalCtx (Claims.imm w) = true := by simpa [ctxIllegal_iff] using hlegal
    have hdec := decode_instr hop' (hmbz.2 hz) ((operandFault?_eq_none_iff .setctx _ _).2 hctx)
    exact (step_of_decode_instr hin hdec).trans (exec_setctx_legal hctx _)

/-- Settles O25: the must-be-zero check of format Z, then the answer `CTX`, which the invariant makes legal. -/
theorem rdctxWord : Obligations.RdctxWord := by
  intro s w rest hin hop
  obtain ⟨hmbz, hexec⟩ := step_of_operandless_word (op := .rdctx) hin hop rfl
  refine ⟨hmbz, fun hz => ⟨(hexec hz).trans (exec_rdctx _), fun hinv => ?_⟩⟩
  obtain ⟨hctx, -⟩ := hinv
  simp [ctxIllegal_iff, hctx]

end Sys2Proof.Proofs

/-! PROOFS. Rejection and acceptance (spec/60_exceptions.md). The status of a command is fixed by its decoding: the
status of the rejection, or OK for a word that decodes. -/

namespace Sys2Proof.Proofs

open Sys2Proof.Machine Sys2Proof.Laws

theorem sameBlock_rejected (s : State) (rest : List Event) (st : Status) :
    SameBlock s (Claims.rejected s rest st) :=
  ⟨rfl, rfl, rfl, rfl, rfl, rfl⟩

theorem ne_ok_of_decode_rejected {w : CmdWord} {st : Status} (hd : decode (.command w) = .rejected st) : st ≠ .ok := by
  rintro rfl
  exact decode_command_ne_rejected_ok w hd

/-- A word that decodes is accepted from every state (spec/60_exceptions.md R96). -/
theorem step_ok_of_decode_instr {s : State} {w : CmdWord} {rest : List Event} {ins : Instr}
    (hin : Claims.arrives s w rest) (hd : decode (.command w) = .instr ins) :
    ∃ t d, step s = .next t ∧ t.responses = s.responses ++ [⟨.ok, d⟩] := by
  obtain ⟨op, -, rfl⟩ := exists_instrOf_of_decode hd
  obtain ⟨t, d, hexec, hresp, -⟩ := exec_answers (wf_of_decode hd) { s with inputs := rest }
  exact ⟨t, d, (step_of_decode_instr hin hd).trans hexec, hresp⟩

/-- Settles O16: the status is read off the decoding of the word. -/
theorem acceptanceDependsOnTheWordAlone : Obligations.AcceptanceDependsOnTheWordAlone := by
  intro w
  cases hd : decode (.command w) with
  | instr i => exact ⟨.ok, by simp, fun s rest hin => step_ok_of_decode_instr hin hd⟩
  | rejected st =>
    exact ⟨st, by simp [ne_ok_of_decode_rejected hd], fun s rest hin => ⟨_, 0, step_of_decode_rejected hin hd, rfl⟩⟩

/-- Settles O13: a rejection takes the event and gives its response; no decoding rejects with OK. -/
theorem rejectedCommandChangesNothing : Obligations.RejectedCommandChangesNothing := by
  intro w st hd
  refine ⟨ne_ok_of_decode_rejected hd, fun s rest hin => ?_⟩
  exact ⟨_, step_of_decode_rejected hin hd, sameBlock_rejected s rest st, rfl, rfl⟩

end Sys2Proof.Proofs

/-! PROOFS. The invariant, and who writes the dividers and `CTX` (spec/10_state.md R20, R21, R30). Both are read off
what one step can do to the dividers and to `CTX`. -/

namespace Sys2Proof.Proofs

open Sys2Proof.Machine Sys2Proof.Laws

theorem ev_setctx_of_decode {x : TraceStep} {v : Word} (hd : decode x = .instr (.setctx v)) :
    Event.step x = Claims.ev (.setctx v) := by
  rw [eq_encode_of_decode hd]

theorem not_ctxIllegal_iff (v : Word) : ¬ Claims.ctxIllegal v ↔ legalCtx v = true := by
  rw [ctxIllegal_iff, Bool.not_eq_false]

/-- Everything one step can do to `CTX` (spec/10_state.md R21). -/
theorem ctx_cases_of_step {s t : State} (h : step s = .next t) :
    t.ctx = s.ctx ∨
    (∃ v rest, s.inputs = Claims.ev (.setctx v) :: rest ∧ legalCtx v = true ∧ t.ctx = v) ∨
    (∃ rest, s.inputs = .reset :: rest ∧ t.ctx = 0) := by
  obtain ⟨_, rfl⟩ | ⟨rest, hin, rfl⟩ | ⟨x, rest, st, _, _, rfl⟩ | ⟨x, rest, ins, hin, hd, he⟩ := step_cases h
  · exact .inl rfl
  · exact .inr (.inr ⟨rest, hin, rfl⟩)
  · exact .inl rfl
  · cases he with
    | silent | armed | taken | flagTaken | ticked => exact .inl rfl
    | ctxSet v hv => exact .inr (.inl ⟨v, rest, by rw [hin, ev_setctx_of_decode hd], hv, rfl⟩)

theorem legalCtx_of_step {s t : State} (h : step s = .next t) (hlegal : legalCtx s.ctx = true) :
    legalCtx t.ctx = true := by
  obtain hctx | ⟨v, _, _, hv, hctx⟩ | ⟨_, _, hctx⟩ := ctx_cases_of_step h
  · rwa [hctx]
  · rwa [hctx]
  · rw [hctx]
    rfl

theorem div50_le_of_step {s t : State} (h : step s = .next t) (hle : s.div50.toNat ≤ 49) : t.div50.toNat ≤ 49 := by
  obtain ⟨_, _, _, hdiv⟩ | ⟨_, _, hdiv⟩ | ⟨_, _, hdiv⟩ := dividers_of_step h
  · rw [hdiv]
    exact Nat.zero_le _
  · rw [hdiv, nextDiv50_toNat]
    exact Nat.le_of_lt_succ (Nat.mod_lt _ (Nat.succ_pos 49))
  · rwa [hdiv]

/-- Settles O3: `CTX` takes legal values only, and a `DIV50` phase is a remainder modulo 50. -/
theorem stepKeepsInvariant : Obligations.StepKeepsInvariant :=
  fun _ _ ⟨hlegal, hle⟩ h => ⟨legalCtx_of_step h hlegal, div50_le_of_step h hle⟩

/-- Settles O2: both values are 0 at reset. -/
theorem resetMeetsInvariant : Obligations.ResetMeetsInvariant :=
  ⟨rfl, Nat.zero_le 49⟩

/-- Settles O40: the ways of a step that change a divider or `CTX` are the writers named. -/
theorem dividersAndContextWriters : Obligations.DividersAndContextWriters := by
  intro s t h
  refine ⟨fun hne => ?_, fun hne => ?_⟩
  · obtain ⟨rest, hin, _⟩ | ⟨htick, _⟩ | ⟨_, h4, h50⟩ := dividers_of_step h
    · exact .inr ⟨rest, hin⟩
    · exact .inl htick
    · obtain hne | hne := hne
      · exact absurd h4 hne
      · exact absurd h50 hne
  · obtain hctx | ⟨v, rest, hin, hv, hctx⟩ | hreset := ctx_cases_of_step h
    · exact absurd hctx hne
    · exact .inl ⟨v, rest, hin, (not_ctxIllegal_iff v).2 hv, hctx⟩
    · exact .inr hreset

end Sys2Proof.Proofs

/-! PROOFS. The encoding (spec/30_encoding.md sections 2, 3, 8 and 9): the decoder inverts the encoder, and the word of
an instruction as a number. -/

namespace Sys2Proof.Proofs

open Sys2Proof.Machine Sys2Proof.Laws

/-- Settles O6: the decoder gives only legal instructions, each from its own encoding, and inverts the encoder. -/
theorem decodeIsTheInverseOfEncode : Obligations.DecodeIsTheInverseOfEncode := by
  intro i x
  refine ⟨fun h => ⟨wf_of_decode h, eq_encode_of_decode h⟩, ?_⟩
  rintro ⟨hw, rfl⟩
  exact decode_encode hw

theorem packWord_toNat (op : Opcode) (id : IdField) (imm : Word) :
    (packWord op id imm).toNat = (opcodeByte op).toNat * 2 ^ 56 + id.toNat * 2 ^ 48 + imm.toNat := by
  have hzero : (0 : BitVec 16).toNat = 0 := rfl
  simp only [packWord, BitVec.toNat_append, hzero, Nat.or_zero]
  rw [← Nat.shiftLeft_add_eq_or_of_lt id.isLt, ← Nat.shiftLeft_add_eq_or_of_lt imm.isLt]
  simp only [Nat.shiftLeft_eq]
  omega

/-- Settles O8: each word is packed from its opcode byte and its operands. -/
theorem encodedWordsAsNumbers : Obligations.EncodedWordsAsNumbers := by
  refine ⟨?_, ?_, ?_, ?_, ?_, ?_, ?_, ?_, ?_⟩
  case refine_1 | refine_9 =>
    rintro w ⟨⟩
    simp [packWord_toNat, opcodeByte]
  case refine_2 =>
    rintro ch v w ⟨⟩
    simp [packWord_toNat, opcodeByte]
  all_goals
    rintro operand w ⟨⟩
    simp [packWord_toNat, opcodeByte]

/-- Settles O9: each word is run through the decoder. -/
theorem listedWordsDecode : Obligations.ListedWordsDecode := by
  refine ⟨?_, ?_, ?_, ?_, ?_, ?_, ?_, ?_, ?_, ?_, ?_⟩ <;> decide

end Sys2Proof.Proofs

/-! PROOFS. The instructions as `exec` performs them (spec/41_countdown_commands.md, spec/42_trigger_commands.md,
spec/43_context_commands.md, spec/10_state.md section 7): completion, result and frame, from the equation of each
instruction and from the effects. -/

namespace Sys2Proof.Proofs

open Sys2Proof.Machine Sys2Proof.Laws

/-- Settles O5: the next event is taken, decoded and performed. -/
theorem stepRunsTheDecodedInstruction : Obligations.StepRunsTheDecodedInstruction :=
  ⟨fun _ _ _ _ hin hd => step_of_decode_instr hin hd,
    fun _ _ _ _ hin hd => (step_of_cons hin).trans (performStep_rejected hd _),
    fun _ _ hin => step_of_cons hin, fun _ hin => step_of_nil hin⟩

theorem exec_channel_badId {ch : IdField} (hid : 20 ≤ ch.toNat) {v : Word} {ins : Instr}
    (hins : ins = .arm ch v ∨ ins = .rdcnt ch ∨ ins = .rdtrig ch ∨ ins = .take ch) (s : State) :
    exec ins s = .next (Claims.rejected s s.inputs .badId) := by
  have hnone := (channel?_eq_none_iff ch).2 hid
  obtain rfl | rfl | rfl | rfl := hins
  all_goals exact onChannel_none hnone _ _

theorem exec_flag_badId {f : IdField} (hid : 2 ≤ f.toNat) {ins : Instr}
    (hins : ins = .rdflag f ∨ ins = .takef f) (s : State) :
    exec ins s = .next (Claims.rejected s s.inputs .badId) := by
  have hnone := (flag?_eq_none_iff f).2 hid
  obtain rfl | rfl := hins
  all_goals exact onFlag_none hnone _ _

/-- Settles O12: an id that names nothing has no channel or flag to act on; a write at one in range is no write at
another. -/
theorem idOutOfRangeIsRejected : Obligations.IdOutOfRangeIsRejected := by
  refine ⟨fun s ch v i hid hins => exec_channel_badId hid hins s, fun s f i hid hins => exec_flag_badId hid hins s,
    fun s t i j v hij h => ?_, fun s t f k hfk h => ?_⟩
  · obtain h | h := h
    · exact pair_of_command_elsewhere hij (.inl rfl) h
    · exact pair_of_command_elsewhere (v := v) hij (.inr (.inr (.inr rfl))) h
  · cases (exec_takef (flag?_ofNat f) s).symm.trans h
    exact (clearFlag_getElem f k s).trans (if_neg hfk.symm)

/-- Settles O26, by the equation of each instruction. -/
theorem readingInstructionsComplete : Obligations.ReadingInstructionsComplete :=
  fun s => ⟨exec_nop s, fun i => exec_rdcnt (channel?_ofNat i) s, fun i => exec_rdtrig (channel?_ofNat i) s,
    fun f => exec_rdflag (flag?_ofNat f) s, exec_rdctx s⟩

/-- Settles O27: the bits after it are those of `clearTrig` or `clearFlag`. -/
theorem takingInstructionsComplete : Obligations.TakingInstructionsComplete :=
  fun s => ⟨fun i => ⟨(clearTrig i s).trig, fun j => clearTrig_getElem i j s, exec_take (channel?_ofNat i) s⟩,
    fun f => ⟨(clearFlag f s).flag, fun k => clearFlag_getElem f k s, exec_takef (flag?_ofNat f) s⟩⟩

/-- Settles O28: the counts after an `ARM` are those of `writeCount`; `SETCTX` checks its value. -/
theorem writingInstructionsComplete : Obligations.WritingInstructionsComplete := by
  refine fun s v => ⟨fun i => ?_, fun hlegal => ?_, fun hillegal => ?_⟩
  · exact ⟨(writeCount i v s).count, fun j => writeCount_getElem i j v s, exec_arm (channel?_ofNat i) v s⟩
  · exact exec_setctx_legal ((not_ctxIllegal_iff v).1 hlegal) s
  · exact exec_setctx_illegal ((ctxIllegal_iff v).1 hillegal) s

/-- Settles O36: an effect writes the pieces its instruction is named with, and takes no event. -/
theorem instructionsWriteOnlyWhatTheyMay : Obligations.InstructionsWriteOnlyWhatTheyMay := by
  intro i s t h
  cases effect_of_exec h with
  | silent =>
    exact ⟨fun _ _ => rfl, fun _ _ => rfl, fun _ _ => rfl, fun _ => ⟨rfl, rfl⟩, fun _ => rfl, rfl⟩
  | armed ch k v =>
    exact ⟨fun hno => absurd rfl (hno ch v), fun _ _ => rfl, fun _ _ => rfl, fun _ => ⟨rfl, rfl⟩, fun _ => rfl, rfl⟩
  | taken ch =>
    exact ⟨fun _ _ => rfl, fun hno => absurd rfl (hno ch), fun _ _ => rfl, fun _ => ⟨rfl, rfl⟩, fun _ => rfl, rfl⟩
  | flagTaken f =>
    exact ⟨fun _ _ => rfl, fun _ _ => rfl, fun hno => absurd rfl (hno f), fun _ => ⟨rfl, rfl⟩, fun _ => rfl, rfl⟩
  | ctxSet v =>
    exact ⟨fun _ _ => rfl, fun _ _ => rfl, fun _ _ => rfl, fun _ => ⟨rfl, rfl⟩, fun hno => absurd rfl (hno v), rfl⟩
  | ticked =>
    exact ⟨fun _ hno => absurd rfl hno, fun _ hno => absurd rfl hno, fun _ hno => absurd rfl hno,
      fun hno => absurd rfl hno, fun _ => rfl, rfl⟩

end Sys2Proof.Proofs

/-! PROOFS. The expiry law (spec/40_tick.md section 5) and what follows from it. One step without an `ARM` of the
channel and without a reset lowers the count by one if it is an enabled TICK step, and sets the trigger at the expiry; a
run adds these up. Pulses that follow each other find the same gate, so they are all enabled or all not. -/

namespace Sys2Proof.Proofs

open Sys2Proof.Machine Sys2Proof.Laws

/-! ### One step -/

theorem nextIsTick_eq_false {s : State} (h : ∀ e ∈ s.inputs.head?, e ≠ .step .tick) : nextIsTick s = false :=
  beq_eq_false_iff_ne.2 fun e => h _ e rfl

theorem nextIsEnabledTick_eq_false {s : State} (i : Channel) (h : ∀ e ∈ s.inputs.head?, e ≠ .step .tick) :
    nextIsEnabledTick i s = false := by
  rw [nextIsEnabledTick, nextIsTick_eq_false h, Bool.false_and]

theorem nextIsEnabledTick_of_tick {s : State} {rest : List Event} (i : Channel) (h : s.inputs = .step .tick :: rest) :
    nextIsEnabledTick i s = gate i s.ctx := by
  rw [nextIsEnabledTick, nextIsTick_of_cons h, Bool.true_and]

/-- A step without an `ARM` of the channel and without a reset lowers the count by one at an enabled TICK step. -/
theorem count_toNat_of_step {s t : State} {i : Channel}
    (hev : ∀ e ∈ s.inputs.head?, armsChannel i e = false ∧ e ≠ .reset) (h : step s = .next t) :
    t.count[i].toNat = s.count[i].toNat - (nextIsEnabledTick i s).toNat := by
  have hkept : (∀ e ∈ s.inputs.head?, e ≠ .step .tick) → t.count[i] = s.count[i] →
      t.count[i].toNat = s.count[i].toNat - (nextIsEnabledTick i s).toNat := by
    intro hno hc
    rw [hc, nextIsEnabledTick_eq_false i hno]
    rfl
  cases pairStep_of_step i h with
  | idle hin hc => exact hkept (by simp [hin]) hc
  | reset rest hin => simp [hin] at hev
  | tick rest hin hc => rw [hc, tickCount_toNat, nextIsEnabledTick_of_tick i hin]
  | arm rest x ch v hin hd hch => simp [hin, armsChannel, hd, hch] at hev
  | take rest x ch hin hd hch hc =>
    have hx : x ≠ .tick := by rintro rfl; cases hd
    exact hkept (by simp [hin, hx]) hc
  | other rest x hin hx _ _ hc => exact hkept (by simp [hin, hx]) hc

/-- A step without a `TAKE` of the channel and without a reset sets the trigger exactly if it is the setting act. -/
theorem trig_iff_of_step {s t : State} {i : Channel}
    (hev : ∀ e ∈ s.inputs.head?, takesTrigger i e = false ∧ e ≠ .reset) (h : step s = .next t) :
    t.trig[i] = true ↔ s.trig[i] = true ∨ setsTrigger i s = true := by
  rw [setsTrigger_iff]
  cases pairStep_of_step i h with
  | idle hin _ ht => simp [hin, ht]
  | reset rest hin => simp [hin] at hev
  | tick rest hin _ ht => simp [hin, ht, tickTrig_iff]
  | take rest x ch hin hd hch => simp [hin, takesTrigger, hd, hch] at hev
  | arm rest x ch v hin hd _ _ ht =>
    have hx : x ≠ .tick := by rintro rfl; cases hd
    simp [hin, ht, hx]
  | other rest x hin hx _ _ _ ht => simp [hin, ht, hx]

/-- The setting act, in numbers. -/
theorem setsTrigger_iff_toNat (i : Channel) (s : State) :
    setsTrigger i s = true ↔ (nextIsEnabledTick i s).toNat = 1 ∧ s.count[i].toNat = 1 := by
  rw [setsTrigger, Bool.and_eq_true, beq_iff_eq, ← BitVec.toNat_inj, Bool.toNat_eq_one]
  rfl

/-! ### Runs -/

/-- The events of a run are the event of its first step and the events of the run after it. -/
theorem allowed_of_step {ok : Event → Prop} {n : Nat} {s u : State} (h : step s = .next u)
    (hok : ∀ e ∈ s.inputs.take (n + 1), ok e) : (∀ e ∈ s.inputs.head?, ok e) ∧ ∀ e ∈ u.inputs.take n, ok e := by
  rw [inputs_of_step h]
  cases hin : s.inputs with
  | nil => simp
  | cons e rest =>
    rw [hin, List.take_succ_cons, List.forall_mem_cons] at hok
    simpa using hok

theorem enabledTicks_succ {n : Nat} {s u : State} (i : Channel) (h : step s = .next u) :
    enabledTicks i (n + 1) s = (nextIsEnabledTick i s).toNat + enabledTicks i n u := by
  rw [enabledTicks, stepsFrom_succ_of_step h, Bool.toNat, Bool.cond_eq_ite]

theorem count_toNat_of_runsTo {n : Nat} {s t : State} {i : Channel}
    (hev : ∀ e ∈ s.inputs.take n, armsChannel i e = false ∧ e ≠ .reset) (h : RunsTo n s t) :
    t.count[i].toNat = s.count[i].toNat - enabledTicks i n s := by
  induction n generalizing s with
  | zero =>
    cases runsTo_zero.1 h
    rfl
  | succ n ih =>
    obtain ⟨u, hstep, hrun⟩ := runsTo_succ.1 h
    obtain ⟨hhead, htail⟩ := allowed_of_step hstep hev
    rw [ih htail hrun, count_toNat_of_step hhead hstep, enabledTicks_succ i hstep, Nat.sub_sub]

theorem trig_iff_of_runsTo {n : Nat} {s t : State} {i : Channel}
    (hev : ∀ e ∈ s.inputs.take n, armsChannel i e = false ∧ e ≠ .reset)
    (htake : ∀ e ∈ s.inputs.take n, takesTrigger i e = false) (h : RunsTo n s t) :
    t.trig[i] = true ↔ s.trig[i] = true ∨ (1 ≤ s.count[i].toNat ∧ s.count[i].toNat ≤ enabledTicks i n s) := by
  induction n generalizing s with
  | zero =>
    cases runsTo_zero.1 h
    rw [or_iff_left]
    exact fun ⟨hpos, hle⟩ => Nat.not_succ_le_zero _ (hpos.trans hle)
  | succ n ih =>
    obtain ⟨u, hstep, hrun⟩ := runsTo_succ.1 h
    obtain ⟨hhead, htail⟩ := allowed_of_step hstep hev
    obtain ⟨hhead', htail'⟩ := allowed_of_step hstep htake
    have hcount := count_toNat_of_step hhead hstep
    rw [ih htail htail' hrun, trig_iff_of_step (fun e he => ⟨hhead' e he, (hhead e he).2⟩) hstep,
      setsTrigger_iff_toNat, enabledTicks_succ i hstep, or_assoc]
    have hone := (nextIsEnabledTick i s).toNat_le
    exact or_congr_right (by omega)

/-- Settles O44: the count and the trigger of the run, by induction on its steps. -/
theorem expiryLaw : Obligations.ExpiryLaw :=
  fun _ _ _ _ hev h => ⟨count_toNat_of_runsTo hev h, fun htake => trig_iff_of_runsTo hev htake h⟩

/-! ### Pulses that follow each other -/

theorem enabledTicks_of_pulses {n : Nat} {s : State} {rest : List Event} (i : Channel)
    (hin : s.inputs = List.replicate n (.step .tick) ++ rest) :
    enabledTicks i n s = n * (gate i s.ctx).toNat := by
  induction n generalizing s with
  | zero => exact (Nat.zero_mul _).symm
  | succ n ih =>
    rw [List.replicate_succ, List.cons_append] at hin
    rw [enabledTicks_succ i (step_of_tick hin), ih (ticked_inputs _), nextIsEnabledTick_of_tick i hin, ticked_ctx,
      Nat.succ_mul, Nat.add_comm]

theorem eq_tick_of_mem_pulses {n : Nat} {s : State} {rest : List Event}
    (hin : s.inputs = List.replicate n (.step .tick) ++ rest) : ∀ e ∈ s.inputs.take n, e = .step .tick := by
  rw [hin, List.take_left' List.length_replicate]
  exact fun _ => List.eq_of_mem_replicate

/-- The expiry law of a run of pulses. -/
theorem pair_of_pulses {n : Nat} {s t : State} {rest : List Event} (i : Channel)
    (hin : s.inputs = List.replicate n (.step .tick) ++ rest) (h : RunsTo n s t) :
    t.count[i].toNat = s.count[i].toNat - n * (gate i s.ctx).toNat ∧
    (t.trig[i] = true ↔
      s.trig[i] = true ∨ (1 ≤ s.count[i].toNat ∧ s.count[i].toNat ≤ n * (gate i s.ctx).toNat)) := by
  have hpulse := eq_tick_of_mem_pulses hin
  rw [← enabledTicks_of_pulses i hin]
  obtain ⟨hcount, htrig⟩ := expiryLaw n s t i (fun e he => by rw [hpulse e he]; exact ⟨rfl, nofun⟩) h
  exact ⟨hcount, htrig fun e he => by rw [hpulse e he]; rfl⟩

/-- Settles O34: under a closed gate the pulses are no enabled TICK steps, so the expiry law takes nothing away. -/
theorem closedGateHoldsTheChannel : Obligations.ClosedGateHoldsTheChannel := by
  intro n s t rest i hin hgate h
  obtain ⟨hcount, htrig⟩ := pair_of_pulses i hin h
  rw [hgate] at hcount htrig
  refine ⟨BitVec.eq_of_toNat_eq hcount, Bool.eq_iff_iff.2 (htrig.trans (or_iff_left ?_))⟩
  exact fun ⟨hpos, hle⟩ => Nat.not_succ_le_zero _ (hpos.trans hle)

end Sys2Proof.Proofs

/-! PROOFS. Two commands and what falls between them (spec/20_memory.md sections 2 and 4, spec/60_exceptions.md section
3, spec/70_reset_and_hazards.md section 3). A run is cut at the two commands: the first step, the run over the events
between, the second step, the run after it. -/

namespace Sys2Proof.Proofs

open Sys2Proof.Machine Sys2Proof.Laws

/-! ### Cutting a run -/

theorem runsTo_two {s u t : State} (h : step s = .next u) (h' : step u = .next t) : RunsTo 2 s t :=
  runsTo_succ.2 ⟨u, h, runsTo_succ.2 ⟨t, h', runsTo_zero.2 rfl⟩⟩

/-- A run over two events, those between and those after, cut before and after each of the two. -/
theorem cut_of_runsTo {a b : Event} {between after : List Event} {s t : State}
    (hin : s.inputs = a :: between ++ b :: after) (h : RunsTo (between.length + after.length + 2) s t) :
    ∃ u v w, step s = .next u ∧ u.inputs = between ++ b :: after ∧ RunsTo between.length u v ∧
      v.inputs = b :: after ∧ step v = .next w ∧ w.inputs = after ∧ RunsTo after.length w t := by
  rw [show between.length + after.length + 2 = between.length + (after.length + 1) + 1 by omega] at h
  obtain ⟨u, hu, h⟩ := runsTo_succ.1 h
  obtain ⟨v, hv, h⟩ := runsTo_add.1 h
  obtain ⟨w, hw, h⟩ := runsTo_succ.1 h
  have hinu : u.inputs = between ++ b :: after := by rw [inputs_of_step hu, hin]; rfl
  have hinv : v.inputs = b :: after := by rw [inputs_of_runsTo hv, hinu, List.drop_left]
  exact ⟨u, v, w, hu, hinu, hv, hinv, hw, by rw [inputs_of_step hw, hinv]; rfl, h⟩

/-- The same, where nothing comes after the second event. -/
theorem cut_of_runsTo_last {a b : Event} {between : List Event} {n : Nat} {s t : State}
    (hin : s.inputs = a :: between ++ [b]) (hlen : between.length = n) (h : RunsTo (n + 2) s t) :
    ∃ u v, step s = .next u ∧ u.inputs = between ++ [b] ∧ RunsTo n u v ∧ v.inputs = [b] ∧ step v = .next t := by
  subst hlen
  obtain ⟨u, v, w, hu, hinu, hv, hinv, hw, -, hrun⟩ := cut_of_runsTo (after := []) hin h
  cases runsTo_zero.1 hrun
  exact ⟨u, v, hu, hinu, hv, hinv, hw⟩

/-- The events of the run over the events between. -/
theorem mem_between {u : State} {between after : List Event} (hin : u.inputs = between ++ after) {e : Event}
    (he : e ∈ u.inputs.take between.length) : e ∈ between := by
  rwa [hin, List.take_left] at he

/-! ### Taking twice -/

/-- The event `e` takes the bit `bit`: it answers the bit and leaves it clear. -/
def Takes (e : Event) (bit : State → Bool) : Prop :=
  ∀ s t : State, s.inputs.head? = some e → step s = .next t →
    t.responses = s.responses ++ [⟨.ok, Claims.bit (bit s)⟩] ∧ bit t = false

/-- Every step that is no TICK step keeps the bit `bit` clear. -/
def SetByTickAlone (bit : State → Bool) : Prop :=
  ∀ s t : State, nextIsTick s = false → step s = .next t → bit s = false → bit t = false

/-- Two takes of a bit that only a TICK step sets, with none between, answer the bit and then 0. -/
theorem delivered_once {e : Event} {bit : State → Bool} (htakes : Takes e bit) (hset : SetByTickAlone bit)
    {s t : State} {between : List Event} (hno : .step .tick ∉ between) (hin : s.inputs = e :: between ++ [e])
    (h : RunsTo (between.length + 2) s t) :
    t.responses[s.responses.length]? = some ⟨.ok, Claims.bit (bit s)⟩ ∧ t.responses.getLast? = some ⟨.ok, 0⟩ := by
  obtain ⟨u, v, hu, hinu, hv, hinv, ht⟩ := cut_of_runsTo_last hin rfl h
  obtain ⟨hanswer, hclear⟩ := htakes s u (by rw [hin]; rfl) hu
  obtain ⟨-, out, hout, -⟩ := responsesComeInOrderOnePerCommand _ u v hv
  have hclear' : bit v = false :=
    inv_of_runsTo (ok := (· ≠ .step .tick)) (fun s t hev => hset s t (nextIsTick_eq_false hev))
      (fun e he heq => hno (heq ▸ mem_between hinu he)) hv hclear
  obtain ⟨hanswer', -⟩ := htakes v t (by rw [hinv]; rfl) ht
  rw [hclear'] at hanswer'
  refine ⟨?_, by rw [hanswer', List.getLast?_concat]; rfl⟩
  rw [hanswer', hout, hanswer]
  simp

theorem takes_take (i : Channel) : Takes (Claims.ev (.take (Claims.chId i))) fun s => s.trig[i] := by
  intro s t hin h
  cases (step_of_ev_take (List.eq_cons_of_mem_head? hin)).symm.trans h
  exact ⟨rfl, (clearTrig_getElem i i _).trans (if_pos rfl)⟩

theorem step_of_ev_takef {s : State} {rest : List Event} {f : Flag}
    (hin : s.inputs = Claims.ev (.takef (Claims.flagId f)) :: rest) :
    step s = .next (emit ⟨.ok, zextBit s.flag[f]⟩ (clearFlag f { s with inputs := rest })) :=
  (step_of_decode_instr hin (decode_encode (by simp [Instr.wf]))).trans (exec_takef (flag?_ofNat f) _)

theorem takes_takef (f : Flag) : Takes (Claims.ev (.takef (Claims.flagId f))) fun s => s.flag[f] := by
  intro s t hin h
  cases (step_of_ev_takef (List.eq_cons_of_mem_head? hin)).symm.trans h
  exact ⟨rfl, (clearFlag_getElem f f _).trans (if_pos rfl)⟩

theorem trig_setByTickAlone (i : Channel) : SetByTickAlone fun s => s.trig[i] := by
  intro s t hno h hclear
  by_contra hset
  obtain ⟨htick, -⟩ := (triggerSetOnlyByExpiryClearedOnlyByTake s t i h).1 hclear (Bool.eq_true_of_not_eq_false hset)
  simp [hno] at htick

theorem flag_setByTickAlone (f : Flag) : SetByTickAlone fun s => s.flag[f] := by
  intro s t hno h hclear
  by_contra hset
  obtain ⟨htick, -⟩ := (flagSetOnlyByTickClearedOnlyByTakef s t f h).1 hclear (Bool.eq_true_of_not_eq_false hset)
  simp [hno] at htick

/-- Settles O49: a trigger and a flag are bits that a take clears and a TICK alone sets. -/
theorem takenBitIsDeliveredOnce : Obligations.TakenBitIsDeliveredOnce :=
  ⟨fun _ _ i _ hno hin h => delivered_once (takes_take i) (trig_setByTickAlone i) hno hin h,
    fun _ _ f _ hno hin h => delivered_once (takes_takef f) (flag_setByTickAlone f) hno hin h⟩

/-! ### Clearing -/

theorem count_of_ev_arm {s u : State} {rest : List Event} {i : Channel} {v : Word}
    (hin : s.inputs = Claims.ev (.arm (Claims.chId i) v) :: rest) (h : step s = .next u) :
    u.count[i] = v ∧ u.ctx = s.ctx := by
  cases (step_of_ev_arm hin).symm.trans h
  exact ⟨(writeCount_getElem i i v _).trans (if_pos rfl), rfl⟩

/-- A `TAKE` answers the trigger, clears it and keeps the count. -/
theorem pair_of_ev_take {s t : State} {rest : List Event} {i : Channel}
    (hin : s.inputs = Claims.ev (.take (Claims.chId i)) :: rest) (h : step s = .next t) :
    t.responses.getLast? = some ⟨.ok, Claims.bit s.trig[i]⟩ ∧ t.count[i] = s.count[i] ∧ t.trig[i] = false := by
  cases (step_of_ev_take hin).symm.trans h
  exact ⟨List.getLast?_concat, rfl, (clearTrig_getElem i i _).trans (if_pos rfl)⟩

/-- Settles O50: after the cancel the channel stays idle, and an idle channel keeps the trigger cleared. -/
theorem cancelThenClearLeavesNoResidue : Obligations.CancelThenClearLeavesNoResidue := by
  intro s t i between after hev hin h
  obtain ⟨hbetween, hafter⟩ := List.forall_mem_append.1 hev
  obtain ⟨u, v, w, hu, hinu, hv, hinv, hw, hinw, ht⟩ := cut_of_runsTo hin h
  obtain ⟨hcancelled, -⟩ := count_of_ev_arm hin hu
  obtain ⟨hidle, -⟩ := idle_of_runsTo (fun e he => hbetween e (mem_between hinu he)) hv hcancelled
  obtain ⟨-, hkept, hclear⟩ := pair_of_ev_take hinv hw
  obtain ⟨hidle', htrig⟩ :=
    idle_of_runsTo (fun e he => hafter e (List.mem_of_mem_take (hinw ▸ he))) ht (hkept.trans hidle)
  exact ⟨hidle', Bool.eq_false_of_not_eq_true fun hset => Bool.false_ne_true (hclear.symm.trans (htrig hset))⟩

/-- Settles O51: by the expiry law the pulses bring the count to 0 and set the trigger, which the clear answers. -/
theorem armThenClearDropsTheExpiry : Obligations.ArmThenClearDropsTheExpiry := by
  intro s t i v hgate hv hin h
  obtain ⟨u, w, hu, hinu, hw, hinw, ht⟩ := cut_of_runsTo_last hin List.length_replicate h
  obtain ⟨harmed, hctx⟩ := count_of_ev_arm hin hu
  obtain ⟨hcount, htrig⟩ := pair_of_pulses i hinu hw
  rw [harmed, hctx, hgate, Bool.toNat_true, Nat.mul_one] at hcount htrig
  have hpos : 1 ≤ v.toNat := Nat.pos_of_ne_zero fun e => hv (BitVec.eq_of_toNat_eq e)
  obtain ⟨hlast, hkept, hclear⟩ := pair_of_ev_take hinw ht
  rw [htrig.2 (.inr ⟨hpos, le_rfl⟩)] at hlast
  exact ⟨hlast, hkept.trans (BitVec.eq_of_toNat_eq (hcount.trans (Nat.sub_self _))), hclear⟩

/-! ### Reading back -/

theorem step_of_ev_rdcnt {s : State} {rest : List Event} {i : Channel}
    (hin : s.inputs = Claims.ev (.rdcnt (Claims.chId i)) :: rest) :
    step s = .next (emit ⟨.ok, s.count[i]⟩ { s with inputs := rest }) :=
  (step_of_decode_instr hin (decode_encode (by simp [Instr.wf]))).trans (exec_rdcnt (channel?_ofNat i) _)

/-- Settles O52: between the two commands the count is the armed value. -/
theorem armedValueReadsBack : Obligations.ArmedValueReadsBack := by
  intro s t i v between hev hin h
  obtain ⟨u, w, hu, hinu, hw, hinw, ht⟩ := cut_of_runsTo_last hin rfl h
  obtain ⟨harmed, -⟩ := count_of_ev_arm hin hu
  cases (step_of_ev_rdcnt hinw).symm.trans ht
  have hcount : w.count[i] = v := by
    refine inv_of_runsTo (P := fun x => x.count[i] = v) (fun x y hev hstep hx => ?_)
      (fun e he => hev e (mem_between hinu he)) hw harmed
    have hy := count_toNat_of_step (i := i) (fun e he => (hev e he).2) hstep
    rw [nextIsEnabledTick_eq_false i fun e he => (hev e he).1, hx] at hy
    exact BitVec.eq_of_toNat_eq hy
  rw [emit_responses, List.getLast?_concat, hcount]

/-! ### Two steps -/

/-- A channel about to expire: after a TICK its count is 0 and its trigger set. -/
theorem ticked_of_expiring {s : State} {i : Channel} (hgate : gate i s.ctx = true) (hone : s.count[i] = 1) :
    (ticked s).count[i] = 0 ∧ (ticked s).trig[i] = true := by
  have hzero : (ticked s).count[i] = 0 := by
    rw [ticked_count, hone, hgate]
    rfl
  exact ⟨hzero, (ticked_trig_iff s i).2 (.inr ⟨hone, hzero⟩)⟩

/-- Settles O53: with the TICK first the trigger is set when it is taken; with the `TAKE` first the TICK finds the
channel still about to expire. -/
theorem tickAndTakeInEitherOrder : Obligations.TickAndTakeInEitherOrder := by
  intro s i hgate hone hclear
  refine ⟨⟨_, runsTo_two (step_of_tick rfl) (step_of_ev_take rfl), ?_⟩,
    ⟨_, runsTo_two (step_of_ev_take rfl) (step_of_tick rfl), ?_, ?_⟩⟩
  · obtain ⟨hzero, hset⟩ :=
      ticked_of_expiring (s := { s with inputs := [Claims.ev (.take (Claims.chId i))] }) hgate hone
    exact ⟨by rw [hset]; rfl, hzero, (clearTrig_getElem i i _).trans (if_pos rfl)⟩
  · rw [ticked_responses, emit_responses, hclear]
    rfl
  · exact ticked_of_expiring hgate hone

theorem step_of_ev_setctx {s : State} {rest : List Event} {v : Word} (hv : legalCtx v = true)
    (hin : s.inputs = Claims.ev (.setctx v) :: rest) :
    step s = .next (emit ⟨.ok, 0⟩ (writeCtx v { s with inputs := rest })) :=
  (step_of_decode_instr hin (decode_encode hv)).trans (exec_setctx_legal hv _)

/-- Settles O35: the TICK reads the value that the `SETCTX` before it wrote. -/
theorem setctxGatesTheNextTick : Obligations.SetctxGatesTheNextTick := by
  intro s v rest i hv hin
  refine ⟨_, runsTo_two (step_of_ev_setctx ((not_ctxIllegal_iff v).1 hv) hin) (step_of_tick rfl), ?_, rfl⟩
  rw [ticked_count, tickCount_eq]
  rfl

end Sys2Proof.Proofs

/-! PROOFS. The context values (spec/10_state.md R21, R22, spec/30_encoding.md section 8). Legality and each field are
about single bits, and the two spellings of a context value are known bit by bit. -/

namespace Sys2Proof.Proofs

open Sys2Proof.Machine Sys2Proof.Laws

/-! ### The field spelling -/

theorem zextBit_shiftLeft_getLsbD (b : Bool) (n : Nat) {k : Nat} (h : k < 32) :
    (zextBit b <<< n).getLsbD k = (b && decide (k = n)) := by
  rw [BitVec.getLsbD_shiftLeft, zextBit_getLsbD]
  by_cases hn : k = n
  · subst hn
    simp [h]
  · by_cases hlt : k < n
    · simp [hlt, hn]
    · simp [hn, show k - n ≠ 0 by omega]

theorem ctxValue_getLsbD (m : Mode) (a b p q : Bool) {k : Nat} (h : k < 32) : (ctxValue m a b p q).getLsbD k =
    ((modeCode m).getLsbD k || a && decide (k = 4) || b && decide (k = 5) || p && decide (k = 6) ||
      q && decide (k = 7)) := by
  simp only [ctxValue, BitVec.getLsbD_or, zextBit_shiftLeft_getLsbD _ _ h, BitVec.getLsbD_setWidth, h, decide_true,
    Bool.true_and]

/-- Outside bits 4 to 7 the mode is all there is. -/
theorem ctxValue_getLsbD_outside (m : Mode) (a b p q : Bool) {k : Nat} (h : k < 32) (hk : k < 4 ∨ 8 ≤ k) :
    (ctxValue m a b p q).getLsbD k = (modeCode m).getLsbD k := by
  rw [ctxValue_getLsbD m a b p q h]
  simp [show k ≠ 4 by omega, show k ≠ 5 by omega, show k ≠ 6 by omega, show k ≠ 7 by omega]

theorem ctxMode_ctxValue (m : Mode) (a b p q : Bool) : ctxMode (ctxValue m a b p q) = modeCode m := by
  apply BitVec.eq_of_getLsbD_eq
  intro k hk
  rw [ctxMode, BitVec.getLsbD_extractLsb', Nat.zero_add, ctxValue_getLsbD_outside _ _ _ _ _ (by omega) (by omega),
    decide_eq_true hk, Bool.true_and]

theorem modeCode_toNat_le (m : Mode) : (modeCode m).toNat ≤ 5 := by
  cases m <;> decide

theorem exists_modeCode {k : BitVec 3} (h : k.toNat ≤ 5) : ∃ m, modeCode m = k := by
  have hk : k = 0 ∨ k = 1 ∨ k = 2 ∨ k = 3 ∨ k = 4 ∨ k = 5 := by
    revert k
    decide
  obtain rfl | rfl | rfl | rfl | rfl | rfl := hk
  exacts [⟨.foreground, rfl⟩, ⟨.receiving, rfl⟩, ⟨.confirmingSignal, rfl⟩, ⟨.transmitting, rfl⟩, ⟨.monitoring, rfl⟩,
    ⟨.powerSaving, rfl⟩]

theorem legalCtx_ctxValue (m : Mode) (a b p q : Bool) : legalCtx (ctxValue m a b p q) = true := by
  have hmode : (ctxMode (ctxValue m a b p q)).toNat ≤ 5 := by
    rw [ctxMode_ctxValue]
    exact modeCode_toNat_le m
  refine (legalCtx_iff _).2 ⟨?_, ?_, hmode⟩
  · apply BitVec.eq_of_getLsbD_eq
    intro k hk
    rw [BitVec.getLsbD_extractLsb', ctxValue_getLsbD_outside _ _ _ _ _ (by omega) (by omega),
      BitVec.getLsbD_of_ge _ _ (by omega)]
    simp
  · rw [ctxValue_getLsbD_outside _ _ _ _ _ (by omega) (by omega)]
    exact BitVec.getLsbD_of_ge _ 3 le_rfl

/-- A legal value is the spelling of its own fields. -/
theorem eq_ctxValue_of_legal {v : Word} (h : legalCtx v = true) {m : Mode} (hm : modeCode m = ctxMode v) :
    v = ctxValue m (ctxDwEn v) (ctxNoaaEn v) (ctxScanAct v) (ctxTscanAct v) := by
  obtain ⟨hhigh, h3, -⟩ := (legalCtx_iff v).1 h
  apply BitVec.eq_of_getLsbD_eq
  intro k hk
  rw [ctxValue_getLsbD _ _ _ _ _ hk, hm, ctxMode, BitVec.getLsbD_extractLsb', Nat.zero_add]
  match k with
  | 0 | 1 | 2 => simp
  | 3 => simpa using h3
  | 4 => simp [ctxDwEn]
  | 5 => simp [ctxNoaaEn]
  | 6 => simp [ctxScanAct]
  | 7 => simp [ctxTscanAct]
  | k + 8 =>
    have hbit := congrArg (fun u : BitVec 24 => u.getLsbD k) hhigh
    rw [BitVec.getLsbD_extractLsb', Nat.add_comm] at hbit
    have hzero : v.getLsbD (k + 8) = false := by simpa [show k < 24 by omega] using hbit
    simp [hzero]

/-- Settles O54: the spelling of any fields is legal and spells those fields; a legal value is spelled by its own. -/
theorem legalContextValuesAreTheFieldSpellings : Obligations.LegalContextValuesAreTheFieldSpellings := by
  refine ⟨fun v => ?_, fun m a b p q => ⟨ctxMode_ctxValue m a b p q, ?_, ?_, ?_, ?_⟩⟩
  · rw [not_ctxIllegal_iff]
    refine ⟨fun h => ?_, ?_⟩
    · obtain ⟨m, hm⟩ := exists_modeCode ((legalCtx_iff v).1 h).2.2
      exact ⟨m, _, _, _, _, eq_ctxValue_of_legal h hm⟩
    · rintro ⟨m, a, b, p, q, rfl⟩
      exact legalCtx_ctxValue m a b p q
  all_goals
    refine (ctxValue_getLsbD m a b p q (by omega)).trans ?_
    rw [BitVec.getLsbD_of_ge _ _ (by omega)]
    simp

/-! ### `SETMODE` -/

theorem withMode_low (v : Word) (k : BitVec 3) : (v &&& 0xFFFFFFF8 ||| k.setWidth 32).extractLsb' 0 3 = k := by
  apply BitVec.eq_of_getLsbD_eq
  intro i hi
  rw [BitVec.getLsbD_extractLsb', Nat.zero_add, withMode_getLsbD v k i (by omega), if_pos hi, decide_eq_true hi,
    Bool.true_and]

/-- The fields from bit 3 on stay. -/
theorem withMode_high (v : Word) (k : BitVec 3) {start len : Nat} (h : 3 ≤ start) (hend : start + len ≤ 32) :
    (v &&& 0xFFFFFFF8 ||| k.setWidth 32).extractLsb' start len = v.extractLsb' start len := by
  apply BitVec.eq_of_getLsbD_eq
  intro i hi
  rw [BitVec.getLsbD_extractLsb', BitVec.getLsbD_extractLsb', withMode_getLsbD v k _ (by omega), if_neg (by omega)]

theorem legalCtx_withMode {v : Word} (h : legalCtx v = true) (m : Mode) :
    legalCtx (v &&& 0xFFFFFFF8 ||| (modeCode m).setWidth 32) = true := by
  obtain ⟨hhigh, h3, -⟩ := (legalCtx_iff v).1 h
  refine (legalCtx_iff _).2 ⟨(withMode_high v _ (by omega) (by omega)).trans hhigh, ?_, ?_⟩
  · rw [withMode_getLsbD v _ 3 (by omega), if_neg (by omega), h3]
  · rw [withMode_low]
    exact modeCode_toNat_le m

/-- Pulses write no context value and give no response. -/
theorem ctx_and_responses_of_pulses {n : Nat} {s t : State} {rest : List Event}
    (hin : s.inputs = List.replicate n (.step .tick) ++ rest) (h : RunsTo n s t) :
    t.ctx = s.ctx ∧ t.responses = s.responses := by
  refine inv_of_runsTo (P := fun x => x.ctx = s.ctx ∧ x.responses = s.responses) (fun x y hev hstep hx => ?_)
    (eq_tick_of_mem_pulses hin) h ⟨rfl, rfl⟩
  cases hin : x.inputs with
  | nil =>
    cases (step_of_nil hin).symm.trans hstep
    exact hx
  | cons e rest =>
    cases hev e (by rw [hin]; rfl)
    cases (step_of_tick hin).symm.trans hstep
    exact hx

theorem step_of_ev_rdctx {s : State} {rest : List Event} (hin : s.inputs = Claims.ev .rdctx :: rest) :
    step s = .next (emit ⟨.ok, s.ctx⟩ { s with inputs := rest }) :=
  (step_of_decode_instr hin (decode_encode rfl)).trans (exec_rdctx _)

/-- Settles O55: the pulses keep `CTX` as the `RDCTX` answered it, and `SETCTX` writes that value with its low bits
replaced, which is legal again. -/
theorem setmodeChangesTheModeAlone : Obligations.SetmodeChangesTheModeAlone := by
  intro s t m k hinv hin h
  obtain ⟨hlegal, -⟩ := hinv
  obtain ⟨u, v, hu, hinu, hv, hinv, ht⟩ := cut_of_runsTo_last hin List.length_replicate h
  cases (step_of_ev_rdctx hin).symm.trans hu
  cases (step_of_ev_setctx (legalCtx_withMode hlegal m) hinv).symm.trans ht
  obtain ⟨-, hresp⟩ := ctx_and_responses_of_pulses hinu hv
  refine ⟨?_, withMode_low s.ctx _, withMode_high s.ctx _ le_rfl le_rfl⟩
  rw [emit_responses, writeCtx_responses, hresp, emit_responses, List.append_assoc]
  rfl

end Sys2Proof.Proofs

/-! PROOFS. Expiry in an endless sequence of events (spec/70_reset_and_hazards.md section 5, R114). The count after `n`
events depends on those events alone, so the counts form one sequence, which an enabled TICK step lowers by one; with
infinitely many of these it reaches 0, and the step that brings it there is the setting act. -/

namespace Sys2Proof.Proofs

open Sys2Proof.Machine Sys2Proof.Laws

/-! ### Later events do not matter -/

theorem pairAfter_congr (i : Channel) (e : Event) (rest rest' : List Event) :
    pairAfter i (e :: rest) = pairAfter i (e :: rest') := by
  cases e <;> rfl

theorem ctxAfter_congr (e : Event) (rest rest' : List Event) : ctxAfter (e :: rest) = ctxAfter (e :: rest') := by
  cases e <;> rfl

/-- Runs that take the same events from states that agree on a pair and on `CTX` end in states that agree on the pair,
whatever events come later. -/
theorem pair_of_same_events {n : Nat} {taken later later' : List Event} {i : Channel} {s s' t t' : State}
    (h : RunsTo n s t) (h' : RunsTo n s' t') (hlen : taken.length = n) (hin : s.inputs = taken ++ later)
    (hin' : s'.inputs = taken ++ later') (hctx : s.ctx = s'.ctx)
    (hpair : (s.count[i], s.trig[i]) = (s'.count[i], s'.trig[i])) :
    (t.count[i], t.trig[i]) = (t'.count[i], t'.trig[i]) := by
  subst hlen
  induction taken generalizing s s' with
  | nil =>
    rw [runsTo_zero.1 h, runsTo_zero.1 h']
    exact hpair
  | cons e taken ih =>
    obtain ⟨u, hu, hrun⟩ := runsTo_succ.1 h
    obtain ⟨u', hu', hrun'⟩ := runsTo_succ.1 h'
    rw [List.cons_append] at hin hin'
    refine ih (by rw [inputs_of_step hu, hin, List.tail_cons]) (by rw [inputs_of_step hu', hin', List.tail_cons])
      ?_ hrun hrun' ?_
    · rw [ctx_of_step hu, ctx_of_step hu', hctx, hin, hin', ctxAfter_congr]
    · rw [pair_of_step i hu, pair_of_step i hu', hctx, hpair, hin, hin', pairAfter_congr]

/-! ### The counts along an endless sequence of events -/

theorem exists_runsTo (n : Nat) (s : State) : ∃ t, RunsTo n s t := by
  obtain ⟨t, -, -, h, -⟩ := runNeverStopsAndIsAFunctionOfStateAndTrace n s s ⟨rfl, rfl, rfl, rfl, rfl, rfl⟩ rfl
  exact ⟨t, h⟩

theorem inputs_of_runsTo_awaiting {n : Nat} {s u : State} {events : Nat → Event}
    (h : RunsTo n (s.awaiting events (n + 1)) u) : u.inputs = [events n] := by
  rw [inputs_of_runsTo h]
  simp [State.awaiting, List.range_succ]

/-- The count after one more event, from the count before it. -/
theorem count_of_awaiting_succ {n : Nat} {s u v : State} {events : Nat → Event} {i : Channel}
    (hev : armsChannel i (events n) = false ∧ events n ≠ .reset) (hu : RunsTo n (s.awaiting events (n + 1)) u)
    (hv : RunsTo (n + 1) (s.awaiting events (n + 2)) v) :
    v.count[i].toNat = u.count[i].toNat - (nextIsEnabledTick i u).toNat := by
  obtain ⟨t, ht⟩ := exists_runsTo 1 u
  have hpair : (v.count[i], v.trig[i]) = (t.count[i], t.trig[i]) :=
    pair_of_same_events (taken := (List.range (n + 1)).map events) (later := [events (n + 1)]) (later' := [])
      hv (runsTo_add.2 ⟨u, hu, ht⟩) (by simp) (by simp [State.awaiting, List.range_succ]) (List.append_nil _).symm
      rfl rfl
  obtain ⟨t', hstep, hzero⟩ := runsTo_succ.1 ht
  cases runsTo_zero.1 hzero
  have hcount : v.count[i] = t.count[i] := congrArg Prod.fst hpair
  rw [hcount]
  refine count_toNat_of_step (fun e he => ?_) hstep
  rw [inputs_of_runsTo_awaiting hu] at he
  cases he
  exact hev

/-- A sequence of natural numbers that starts above 0, is lowered by one where `lowers` says so and is else kept, is
lowered from 1 somewhere if it is lowered infinitely often. -/
theorem exists_lowered_from_one {c : Nat → Nat} {lowers : Nat → Bool} (hc : ∀ n, c (n + 1) = c n - (lowers n).toNat)
    (hstart : c 0 ≠ 0) (hoften : ∀ n, ∃ m, n ≤ m ∧ lowers m = true) : ∃ n, lowers n = true ∧ c n = 1 := by
  by_contra hno
  have hpos : ∀ n, c n ≠ 0 := by
    intro n
    induction n with
    | zero => exact hstart
    | succ n ih =>
      cases hl : lowers n with
      | true =>
        have hne : c n ≠ 1 := fun e => hno ⟨n, hl, e⟩
        rw [hc, hl, Bool.toNat_true]
        omega
      | false => rwa [hc, hl]
  have hanti : Antitone c := antitone_nat_of_succ_le fun n => by
    rw [hc]
    exact Nat.sub_le _ _
  obtain ⟨m, hle, hm⟩ := hoften (Function.argmin c)
  have hmin : c (Function.argmin c) ≤ c (m + 1) := Function.argmin_le c (m + 1)
  have hbelow : c m ≤ c (Function.argmin c) := hanti hle
  rw [hc, hm, Bool.toNat_true] at hmin
  have := hpos m
  omega

/-- Settles O56: the counts form a sequence that enabled TICK steps lower, and its lowering from 1 sets the trigger. -/
theorem runningChannelExpiresIfItsGateKeepsOpening : Obligations.RunningChannelExpiresIfItsGateKeepsOpening := by
  intro s events i hev hrunning hoften
  choose after hafter using fun n => exists_runsTo n (s.awaiting events (n + 1))
  have hstart : (after 0).count[i].toNat ≠ 0 := by
    rw [runsTo_zero.1 (hafter 0)]
    exact fun e => hrunning (BitVec.eq_of_toNat_eq e)
  obtain ⟨n, hticks, hone⟩ := exists_lowered_from_one (c := fun n => (after n).count[i].toNat)
    (lowers := fun n => nextIsEnabledTick i (after n))
    (fun n => count_of_awaiting_succ (hev n) (hafter n) (hafter (n + 1))) hstart fun n => by
      obtain ⟨m, u, hle, hu, hticks⟩ := hoften n
      cases hu.symm.trans (hafter m)
      exact ⟨m, hle, hticks⟩
  exact ⟨n, after n, hafter n, (setsTrigger_iff_toNat i _).2 ⟨Bool.toNat_eq_one.2 hticks, hone⟩⟩

/-- Settles O46: every pulse is an enabled TICK step for an ungated channel. -/
theorem runningUngatedChannelExpiresUnderFairness : Obligations.RunningUngatedChannelExpiresUnderFairness := by
  intro s events i h1 h2 h10 hfair hev hrunning
  refine runningChannelExpiresIfItsGateKeepsOpening s events i hev hrunning fun n => ?_
  obtain ⟨m, hle, hpulse⟩ := hfair n
  obtain ⟨u, hu⟩ := exists_runsTo m (s.awaiting events (m + 1))
  refine ⟨m, u, hle, hu, ?_⟩
  rw [nextIsEnabledTick_of_tick i ((inputs_of_runsTo_awaiting hu).trans (congrArg (· :: []) hpulse)),
    gate_ungated h1 h2 h10]

end Sys2Proof.Proofs
